-- ==== Sys2Proof/Word.lean ====
section
/-! DEFINITION. The two widths of the SMC88D: the 8-bit registers, operands and memory bytes (00_scope.md R5) and the
16-bit in-page address (20_memory.md R35). -/

namespace Sys2Proof

/-- An 8-bit value: a data register, SC, BR, an immediate, a byte of memory (00_scope.md R5, 10_state.md R13). -/
abbrev Byte := BitVec 8

/-- A 16-bit in-page address, and the content of an index register (20_memory.md R35, 10_state.md R19). -/
abbrev Offset := BitVec 16

end Sys2Proof
end

