-- ==== Sys2Proof/Config.lean ====
section
/-! DEFINITION. What the spec leaves to the implementation and the platform: the parameter record of 00_scope.md R5 and
10_state.md R30 (log 1), the value of an unlisted data byte (log 7) and the one free value (log 10). -/

namespace Sys2Proof

/-- A range of physical data addresses, `base` to `base + size - 1`. The platform predicates of 20_memory.md R52 and R58
are finite lists of these, so that a state that holds them stays plain data (log 1). -/
structure Region where
  base : Nat
  size : Nat
  deriving DecidableEq, Repr

/-- The parameters of the model, 00_scope.md R5. They are part of the launch state (70_reset_and_hazards.md R113) and no
step changes them (10_state.md R30). -/
structure Params where
  /-- `PAGED`: the CPU is MODEL2 or MODEL3, the page registers take part in data addressing (R5, D1). -/
  paged : Bool
  /-- `PAGE_BITS`: the width of EP, XP, YP (R5, D2). -/
  pageBits : Nat
  /-- `PC_BITS`: the width of the program counter (R5, D7). -/
  pcBits : Nat
  /-- `AND_BRLL_IMM_WRITES_NZ`: does `AND [BR:ll], #nn` write N and Z (42_and_mem.md R94, conflict C3, decided true). -/
  brllImmWritesNZ : Bool
  /-- Where `Mapped(pa)` is false (20_memory.md R52). -/
  unmapped : List Region
  /-- Where `SideEffect(pa)` is true (20_memory.md R52). -/
  sideEffect : List Region
  /-- Where `CodeRegion(pa)` is true (20_memory.md R58). -/
  codeRegion : List Region
  deriving DecidableEq, Repr

/-- The parameters `State.reset` carries: MODEL2/3, the spec's default widths, the decided switch, and a platform of
plain mapped memory. DESIGN CHOICE, unsafe (log 6). -/
def Config.params : Params :=
  { paged := true, pageBits := 8, pcBits := 16, brllImmWritesNZ := true,
    unmapped := [], sideEffect := [], codeRegion := [] }

/-- What an unlisted byte of data memory reads as. The spec gives no launch content (10_state.md R32).
DESIGN CHOICE, unsafe (log 7). -/
def Config.launchByte : Byte := 0x00#8

/-- The free value behind the one order the spec leaves open (20_memory.md R50, U7): whether the `n`-th choice of a run
reads the source of `AND [HL], [ir]` before its destination. It has no body: nothing is known of it (log 10). -/
opaque Config.freeReadOrder : Nat → Bool

end Sys2Proof
end

