-- ==== Sys2Proof/Syntax.lean ====
section
/-! DEFINITION. The 21 instructions (30_encoding.md R61, R62, R71), and the assembler's view of one: a destination and a
source operand (30_encoding.md R72). -/

namespace Sys2Proof

/-- One constructor per row of the opcode table, named after 30_encoding.md R71. `nn` is the immediate, `ll` and `hh` the
low and high byte of an absolute address, `dd` the displacement (00_scope.md R10). -/
inductive Instr where
  /-- `AND A, A`, R77 -/
  | andAA
  /-- `AND A, B`, R78 -/
  | andAB
  /-- `AND A, #nn`, R79 -/
  | andAImm (nn : Byte)
  /-- `AND A, [HL]`, R82 -/
  | andAMHL
  /-- `AND A, [BR:ll]`, R80 -/
  | andAMBR (ll : Byte)
  /-- `AND A, [hhll]`, R81 -/
  | andAMAbs (ll hh : Byte)
  /-- `AND A, [IX]`, R83 -/
  | andAMIX
  /-- `AND A, [IY]`, R84 -/
  | andAMIY
  /-- `AND SC, #nn`, R92 -/
  | andSCImm (nn : Byte)
  /-- `AND [BR:ll], #nn`, R94 -/
  | andMBRImm (ll nn : Byte)
  /-- `AND A, [IX+dd]`, R85 -/
  | andAMIXd (dd : Byte)
  /-- `AND A, [IY+dd]`, R86 -/
  | andAMIYd (dd : Byte)
  /-- `AND A, [IX+L]`, R87 -/
  | andAMIXL
  /-- `AND A, [IY+L]`, R88 -/
  | andAMIYL
  /-- `AND [HL], A`, R95 -/
  | andMHLA
  /-- `AND [HL], #nn`, R96 -/
  | andMHLImm (nn : Byte)
  /-- `AND [HL], [IX]`, R97 -/
  | andMHLMIX
  /-- `AND [HL], [IY]`, R98 -/
  | andMHLMIY
  /-- `AND B, #nn`, R89 -/
  | andBImm (nn : Byte)
  /-- `AND L, #nn`, R90 -/
  | andLImm (nn : Byte)
  /-- `AND H, #nn`, R91 -/
  | andHImm (nn : Byte)
  deriving DecidableEq, Repr

/-- An operand as the assembler spells it (30_encoding.md R72; symbols of 00_scope.md R10). -/
inductive Operand where
  | a | b | h | l | sc
  /-- `#nn` -/
  | imm (nn : Byte)
  /-- `[BR:ll]` -/
  | mBR (ll : Byte)
  /-- `[hhll]` -/
  | mAbs (ll hh : Byte)
  /-- `[HL]` -/
  | mHL
  /-- `[IX]` -/
  | mIX
  /-- `[IY]` -/
  | mIY
  /-- `[IX+dd]` -/
  | mIXd (dd : Byte)
  /-- `[IY+dd]` -/
  | mIYd (dd : Byte)
  /-- `[IX+L]` -/
  | mIXL
  /-- `[IY+L]` -/
  | mIYL
  deriving DecidableEq, Repr

/-- `AND dst, src` as written, before it is known to be one of the 21 (30_encoding.md R72). -/
structure AsmPair where
  dst : Operand
  src : Operand
  deriving DecidableEq, Repr

/-- The eight flags of SC (10_state.md R21). -/
inductive Flag where
  | i1 | i0 | u | d | n | v | c | z
  deriving DecidableEq, Repr

end Sys2Proof
end

