-- ==== Sys2Proof/WellFormed.lean ====
section
/-! DEFINITION. Which operand pairs the assembler has an encoding for (30_encoding.md R72: "The complete list of legal
operand pairs is the 21 rows of rules R61 and R62"). An `Instr` has byte operands only, so every value of each is legal:
an instruction is well-formed when its operand pair is. -/

namespace Sys2Proof

/-- The operands an instruction is written with, destination first (30_encoding.md R61, R62, R72). -/
def Instr.operands (i : Instr) : AsmPair :=
  match i with
  | .andAA => ⟨.a, .a⟩
  | .andAB => ⟨.a, .b⟩
  | .andAImm nn => ⟨.a, .imm nn⟩
  | .andAMHL => ⟨.a, .mHL⟩
  | .andAMBR ll => ⟨.a, .mBR ll⟩
  | .andAMAbs ll hh => ⟨.a, .mAbs ll hh⟩
  | .andAMIX => ⟨.a, .mIX⟩
  | .andAMIY => ⟨.a, .mIY⟩
  | .andSCImm nn => ⟨.sc, .imm nn⟩
  | .andMBRImm ll nn => ⟨.mBR ll, .imm nn⟩
  | .andAMIXd dd => ⟨.a, .mIXd dd⟩
  | .andAMIYd dd => ⟨.a, .mIYd dd⟩
  | .andAMIXL => ⟨.a, .mIXL⟩
  | .andAMIYL => ⟨.a, .mIYL⟩
  | .andMHLA => ⟨.mHL, .a⟩
  | .andMHLImm nn => ⟨.mHL, .imm nn⟩
  | .andMHLMIX => ⟨.mHL, .mIX⟩
  | .andMHLMIY => ⟨.mHL, .mIY⟩
  | .andBImm nn => ⟨.b, .imm nn⟩
  | .andLImm nn => ⟨.l, .imm nn⟩
  | .andHImm nn => ⟨.h, .imm nn⟩

/-- May A be ANDed with this source: any operand but H, L and SC (R61, R62: the 12 encodings `AND A, src`). -/
def Operand.sourceOfA (o : Operand) : Bool :=
  match o with
  | .h | .l | .sc => false
  | .a | .b | .imm _ | .mBR _ | .mAbs _ _ | .mHL | .mIX | .mIY | .mIXd _ | .mIYd _ | .mIXL | .mIYL => true

/-- May the byte at [HL] be ANDed with this source: A, an immediate, [IX] or [IY] (R62: CEH 24H to 27H). -/
def Operand.sourceOfMHL (o : Operand) : Bool :=
  match o with
  | .a | .imm _ | .mIX | .mIY => true
  | .b | .h | .l | .sc | .mBR _ | .mAbs _ _ | .mHL | .mIXd _ | .mIYd _ | .mIXL | .mIYL => false

/-- Is the operand an immediate: the only source of B, H, L, SC and [BR:ll] (R61, R62). -/
def Operand.isImmediate (o : Operand) : Bool :=
  match o with
  | .imm _ => true
  | .a | .b | .h | .l | .sc | .mBR _ | .mAbs _ _ | .mHL | .mIX | .mIY | .mIXd _ | .mIYd _ | .mIXL | .mIYL => false

/-- The check: does the pair have an encoding (30_encoding.md R72). -/
def AsmPair.wellFormed (p : AsmPair) : Bool :=
  match p.dst with
  | .a => p.src.sourceOfA
  | .mHL => p.src.sourceOfMHL
  | .b | .h | .l | .sc | .mBR _ => p.src.isImmediate
  | .imm _ | .mAbs _ _ | .mIX | .mIY | .mIXd _ | .mIYd _ | .mIXL | .mIYL => false

/-- An instruction is well-formed when the pair it is written with has an encoding. -/
def Instr.wellFormed (i : Instr) : Bool := i.operands.wellFormed

end Sys2Proof
end

