-- ==== Sys2Proof/Decode.lean ====
section
/-! DEFINITION. The decoder (30_encoding.md R61, R62, R67, R71), total on any bytes, and the encoder, each written from
the opcode maps; the words of the opcode table (R74); the assembler's step from an operand pair to an instruction (R72). -/

namespace Sys2Proof

/-- What the decoder says of the bytes at hand. -/
inductive Decoded where
  /-- The bytes begin with this instruction. -/
  | instr (i : Instr)
  /-- "Not shown": the opcode byte, or CEH and the second opcode byte, select no instruction of the source
  (30_encoding.md R68). -/
  | notShown (opcode : List Byte)
  /-- Byte `k` of the instruction (counted from 0) is needed and is not there. -/
  | needByte (k : Nat)
  deriving DecidableEq, Repr

/-- One operand byte, the instruction's byte `k` (30_encoding.md R65). -/
def decodeOne (k : Nat) (f : Byte → Instr) (rest : List Byte) : Decoded :=
  match rest with
  | [] => .needByte k
  | x :: _ => .instr (f x)

/-- Two operand bytes, the instruction's bytes `k` and `k + 1` in that order (30_encoding.md R65). -/
def decodeTwo (k : Nat) (f : Byte → Byte → Instr) (rest : List Byte) : Decoded :=
  match rest with
  | [] => .needByte k
  | [_] => .needByte (k + 1)
  | x :: y :: _ => .instr (f x y)

/-- The second-byte map, after CEH (30_encoding.md R62). -/
def decodeAfterCE (rest : List Byte) : Decoded :=
  match rest with
  | [] => .needByte 1
  | b1 :: ops =>
    match b1 with
    | 0x20#8 => decodeOne 2 .andAMIXd ops
    | 0x21#8 => decodeOne 2 .andAMIYd ops
    | 0x22#8 => .instr .andAMIXL
    | 0x23#8 => .instr .andAMIYL
    | 0x24#8 => .instr .andMHLA
    | 0x25#8 => decodeOne 2 .andMHLImm ops
    | 0x26#8 => .instr .andMHLMIX
    | 0x27#8 => .instr .andMHLMIY
    | 0xB0#8 => decodeOne 2 .andBImm ops
    | 0xB1#8 => decodeOne 2 .andLImm ops
    | 0xB2#8 => decodeOne 2 .andHImm ops
    | _ => .notShown [0xCE#8, b1]

/-- The decoder: the first-byte map (30_encoding.md R61, R71). It reads no more bytes than the instruction has (R67). -/
def decode (bytes : List Byte) : Decoded :=
  match bytes with
  | [] => .needByte 0
  | b0 :: ops =>
    match b0 with
    | 0x20#8 => .instr .andAA
    | 0x21#8 => .instr .andAB
    | 0x22#8 => decodeOne 1 .andAImm ops
    | 0x23#8 => .instr .andAMHL
    | 0x24#8 => decodeOne 1 .andAMBR ops
    | 0x25#8 => decodeTwo 1 .andAMAbs ops
    | 0x26#8 => .instr .andAMIX
    | 0x27#8 => .instr .andAMIY
    | 0x9C#8 => decodeOne 1 .andSCImm ops
    | 0xD8#8 => decodeTwo 1 .andMBRImm ops
    | 0xCE#8 => decodeAfterCE ops
    | _ => .notShown [b0]

/-- The bytes of an instruction in ascending address order (30_encoding.md R60 to R62, R65; 20_memory.md R46). -/
def encode (i : Instr) : List Byte :=
  match i with
  | .andAA => [0x20#8]
  | .andAB => [0x21#8]
  | .andAImm nn => [0x22#8, nn]
  | .andAMHL => [0x23#8]
  | .andAMBR ll => [0x24#8, ll]
  | .andAMAbs ll hh => [0x25#8, ll, hh]
  | .andAMIX => [0x26#8]
  | .andAMIY => [0x27#8]
  | .andSCImm nn => [0x9C#8, nn]
  | .andMBRImm ll nn => [0xD8#8, ll, nn]
  | .andAMIXd dd => [0xCE#8, 0x20#8, dd]
  | .andAMIYd dd => [0xCE#8, 0x21#8, dd]
  | .andAMIXL => [0xCE#8, 0x22#8]
  | .andAMIYL => [0xCE#8, 0x23#8]
  | .andMHLA => [0xCE#8, 0x24#8]
  | .andMHLImm nn => [0xCE#8, 0x25#8, nn]
  | .andMHLMIX => [0xCE#8, 0x26#8]
  | .andMHLMIY => [0xCE#8, 0x27#8]
  | .andBImm nn => [0xCE#8, 0xB0#8, nn]
  | .andLImm nn => [0xCE#8, 0xB1#8, nn]
  | .andHImm nn => [0xCE#8, 0xB2#8, nn]

/-- The length in bytes, from the table of 30_encoding.md R59 (written apart from `encode`, so that the two can be
compared). -/
def Instr.length (i : Instr) : Nat :=
  match i with
  | .andAA | .andAB | .andAMHL | .andAMIX | .andAMIY => 1
  | .andAImm _ | .andAMBR _ | .andSCImm _ | .andAMIXL | .andAMIYL | .andMHLA | .andMHLMIX | .andMHLMIY => 2
  | .andAMAbs _ _ | .andMBRImm _ _ | .andAMIXd _ | .andAMIYd _ | .andMHLImm _ | .andBImm _ | .andLImm _
  | .andHImm _ => 3

/-- The most bytes an instruction has (30_encoding.md R59). -/
def maxLength : Nat := 3

/-- The bytes of a word of the opcode table, in address order: the word is one number whose most significant byte is
byte 0 (30_encoding.md R74; log 21). -/
def tableBytes (nbits w : Nat) : List Byte :=
  (List.range (nbits / 8)).map fun k => BitVec.ofNat 8 (w / 2 ^ (8 * (nbits / 8 - 1 - k)))

/-- The same, with zero bytes up to the longest instruction. -/
def paddedTableBytes (nbits w : Nat) : List Byte :=
  tableBytes nbits w ++ List.replicate (maxLength - nbits / 8) 0x00#8

/-- The instruction the decoder reads from a word of the opcode table. -/
def decodeTableWord (nbits w : Nat) : Option Instr :=
  match decode (paddedTableBytes nbits w) with
  | .instr i => some i
  | .notShown _ => none
  | .needByte _ => none

/-- The assembler: the instruction an operand pair is written for, if the pair is legal (30_encoding.md R72). -/
def assemble (p : AsmPair) : Option Instr :=
  match p.dst, p.src with
  | .a, .a => some .andAA
  | .a, .b => some .andAB
  | .a, .imm nn => some (.andAImm nn)
  | .a, .mHL => some .andAMHL
  | .a, .mBR ll => some (.andAMBR ll)
  | .a, .mAbs ll hh => some (.andAMAbs ll hh)
  | .a, .mIX => some .andAMIX
  | .a, .mIY => some .andAMIY
  | .a, .mIXd dd => some (.andAMIXd dd)
  | .a, .mIYd dd => some (.andAMIYd dd)
  | .a, .mIXL => some .andAMIXL
  | .a, .mIYL => some .andAMIYL
  | .b, .imm nn => some (.andBImm nn)
  | .l, .imm nn => some (.andLImm nn)
  | .h, .imm nn => some (.andHImm nn)
  | .sc, .imm nn => some (.andSCImm nn)
  | .mBR ll, .imm nn => some (.andMBRImm ll nn)
  | .mHL, .a => some .andMHLA
  | .mHL, .imm nn => some (.andMHLImm nn)
  | .mHL, .mIX => some .andMHLMIX
  | .mHL, .mIY => some .andMHLMIY
  | _, _ => none

/-- A hexadecimal digit. -/
def hexDigit (n : Nat) : Char :=
  if n < 10 then Char.ofNat (48 + n) else Char.ofNat (55 + n)

/-- Two hexadecimal digits of a byte, without the suffix. -/
def hexDigits (v : Byte) : List Char := [hexDigit (v.toNat / 16), hexDigit (v.toNat % 16)]

/-- The characters of an operand's spelling, hexadecimal values with the suffix H (30_encoding.md R72). -/
def Operand.spelling (o : Operand) : List Char :=
  match o with
  | .a => ['A']
  | .b => ['B']
  | .h => ['H']
  | .l => ['L']
  | .sc => ['S', 'C']
  | .imm nn => '#' :: hexDigits nn ++ ['H']
  | .mBR ll => ['[', 'B', 'R', ':'] ++ hexDigits ll ++ ['H', ']']
  | .mAbs ll hh => ['['] ++ hexDigits hh ++ hexDigits ll ++ ['H', ']']
  | .mHL => ['[', 'H', 'L', ']']
  | .mIX => ['[', 'I', 'X', ']']
  | .mIY => ['[', 'I', 'Y', ']']
  | .mIXd dd => ['[', 'I', 'X', '+'] ++ hexDigits dd ++ ['H', ']']
  | .mIYd dd => ['[', 'I', 'Y', '+'] ++ hexDigits dd ++ ['H', ']']
  | .mIXL => ['[', 'I', 'X', '+', 'L', ']']
  | .mIYL => ['[', 'I', 'Y', '+', 'L', ']']

/-- The characters of an instruction's line: `AND dst, src` (30_encoding.md R72). -/
def Instr.spelling (i : Instr) : List Char :=
  ['A', 'N', 'D', ' '] ++ i.operands.dst.spelling ++ [',', ' '] ++ i.operands.src.spelling

end Sys2Proof
end

