-- ==== Sys2Proof/Machine/State.lean ====
section
/-! DEFINITION. The state (10_state.md R13, with the parameters of R30 that R113 makes part of a launch), why a step can
stop, and the state after reset. -/

namespace Sys2Proof.Machine

/-- Data memory: the listed bytes by physical address (20_memory.md R34). What an unlisted address reads as is
`Config.launchByte` (log 7); the canonical form is `Memory.wf`. -/
abbrev Memory := List Host.Cell

/-- The program text behind `Fetch`: a finite map from program addresses to bytes (10_state.md R28). An unlisted address
has no value. -/
abbrev Text := List Host.Cell

/-- The state of the machine. A to pc and `mem` are 10_state.md R13; `text` and `params` are the run's parameters
(10_state.md R30, 70_reset_and_hazards.md R113); `choices` is the model's own. -/
structure State where
  /-- 8-bit data register A, R14 -/
  a : Byte
  /-- 8-bit data register B, R15 -/
  b : Byte
  /-- 8-bit register H, the high half of HL, R16, R17 -/
  h : Byte
  /-- 8-bit register L, the low half of HL, R16, R17 -/
  l : Byte
  /-- 8-bit base register BR, R18 -/
  br : Byte
  /-- 16-bit index register IX, R19 -/
  ix : Offset
  /-- 16-bit index register IY, R19 -/
  iy : Offset
  /-- page register EP, the value of a register of `params.pageBits` bits, R20 (log 8) -/
  ep : Nat
  /-- page register XP, the value of a register of `params.pageBits` bits, R20 (log 8) -/
  xp : Nat
  /-- page register YP, the value of a register of `params.pageBits` bits, R20 (log 8) -/
  yp : Nat
  /-- the system condition flags I1 I0 U D N V C Z, bits 7 down to 0, R21 -/
  sc : Byte
  /-- the program counter, the value of a register of `params.pcBits` bits, R27 (log 8) -/
  pc : Nat
  /-- data memory, R34 -/
  mem : Memory
  /-- the program text, R28 -/
  text : Text
  /-- the parameters of the run, R30 -/
  params : Params
  /-- how many open choices the run has used up: the argument of `Config.freeReadOrder` (log 10) -/
  choices : Nat
  deriving DecidableEq, Repr

/-- Where the machine is stuck: the spec gives it no step (20_memory.md R52, 10_state.md R28). -/
inductive Fault where
  /-- Raised by a data read or write at an address with `Mapped` false (20_memory.md R52, U3). Safe: the model stops. -/
  | unmapped (addr : Nat)
  /-- Raised by a step that needs an instruction byte at a program address outside the text (10_state.md R28, U2).
  Safe: the model stops. -/
  | noFetch (addr : Nat)
  deriving DecidableEq, Repr

/-- What the model gives no meaning. -/
inductive Refusal where
  /-- Raised by an arm of `exec` whose instruction has no meaning yet; no arm does. Safe. -/
  | notModelled (mnemonic : String)
  /-- Raised by a step at an encoding the source does not show (30_encoding.md R68, U1). Safe: the model stops. -/
  | notShown (opcode : List Byte)
  /-- Raised by a data read or write at an address with `SideEffect` true: the device's behaviour is not in the spec
  (20_memory.md R52, U4). Safe: the model stops. -/
  | sideEffect (addr : Nat)
  /-- Raised by a data write at an address with `CodeRegion` true (20_memory.md R58, U5). Safe: the model stops. -/
  | codeWrite (addr : Nat)
  deriving DecidableEq, Repr

/-- The outcome of one instruction or one step. -/
abbrev Outcome := Host.Outcome State Fault Refusal

/-- The state after reset. The spec gives no reset value (10_state.md R32): every value here is the model's, named in
log 2 (data, base and index registers), log 3 (SC and the page registers, PRESUMED for the family), log 4 (pc), log 5
(text), log 6 (parameters), log 7 (memory), log 10 (choices). No statement rests on them. -/
def State.reset : State :=
  { a := 0x00#8, b := 0x00#8, h := 0x00#8, l := 0x00#8, br := 0x00#8,
    ix := 0x0000#16, iy := 0x0000#16,
    ep := 0, xp := 0, yp := 0,
    sc := 0xC0#8, pc := 0,
    mem := [], text := [],
    params := Config.params, choices := 0 }

end Sys2Proof.Machine
end

