-- ==== Sys2Proof/Machine/Memory.lean ====
section
/-! DEFINITION. Finite maps from addresses to bytes as lists of cells, and data memory over them in its canonical form
(20_memory.md R34, R44, R45; log 7). -/

namespace Sys2Proof.Machine

/-- The byte listed at an address, if one is. -/
def cellAt (cells : List Host.Cell) (addr : Nat) : Option Byte :=
  match cells with
  | [] => none
  | (k, v) :: rest => if k = addr then some v else cellAt rest addr

/-- List `v` at `addr`, keeping the addresses rising. -/
def putCell (cells : List Host.Cell) (addr : Nat) (v : Byte) : List Host.Cell :=
  match cells with
  | [] => [(addr, v)]
  | (k, w) :: rest =>
    if addr < k then (addr, v) :: (k, w) :: rest
    else if k = addr then (addr, v) :: rest
    else (k, w) :: putCell rest addr v

/-- List nothing at `addr`. -/
def dropCell (cells : List Host.Cell) (addr : Nat) : List Host.Cell :=
  match cells with
  | [] => []
  | (k, w) :: rest => if k = addr then dropCell rest addr else (k, w) :: dropCell rest addr

/-- Addresses strictly rising. -/
abbrev Rising (cells : List Host.Cell) : Prop := cells.Pairwise fun x y => x.1 < y.1

/-- The byte of data memory at a physical address (20_memory.md R44). -/
def Memory.byte (m : Memory) (addr : Nat) : Byte := (cellAt m addr).getD Config.launchByte

/-- Data memory with the byte at a physical address replaced (20_memory.md R45), in canonical form again. -/
def Memory.store (m : Memory) (addr : Nat) (v : Byte) : Memory :=
  if v = Config.launchByte then dropCell m addr else putCell m addr v

/-- The canonical form: addresses strictly rising, and no entry equal to what an unlisted address reads as, so that equal
memories are equal lists (log 7). -/
abbrev Memory.wf (m : Memory) : Prop := Rising m ∧ ∀ c ∈ m, c.2 ≠ Config.launchByte

end Sys2Proof.Machine
end

