-- ==== Sys2Proof/Machine/Ops.lean ====
section
/-! DEFINITION. The named operations the meanings are made of: register writes, the 8-bit AND, byte pairing and sign
extension, the physical address, the two access primitives, the two reads in open order, the pc advance. The spec
describes no exception entry and no return (60_exceptions.md R99 to R105), so there is no operation for one. -/

namespace Sys2Proof.Machine

/-- `s` with register A holding `v`. -/
def State.withA (s : State) (v : Byte) : State := { s with a := v }
/-- `s` with register B holding `v`. -/
def State.withB (s : State) (v : Byte) : State := { s with b := v }
/-- `s` with register H holding `v`. -/
def State.withH (s : State) (v : Byte) : State := { s with h := v }
/-- `s` with register L holding `v`. -/
def State.withL (s : State) (v : Byte) : State := { s with l := v }
/-- `s` with SC holding `v`. -/
def State.withSC (s : State) (v : Byte) : State := { s with sc := v }
/-- `s` with the program counter at `n`. -/
def State.withPC (s : State) (n : Nat) : State := { s with pc := n }
/-- `s` with data memory `m`. -/
def State.withMem (s : State) (m : Memory) : State := { s with mem := m }
/-- `s` with program text `t`. -/
def State.withText (s : State) (t : Text) : State := { s with text := t }
/-- `s` with one more open choice used up (log 10). -/
def State.useChoice (s : State) : State := { s with choices := s.choices + 1 }

/-- Go on with the value, if there is one. -/
def andThen {α β : Type} (o : Host.Outcome α Fault Refusal) (f : α → Host.Outcome β Fault Refusal) :
    Host.Outcome β Fault Refusal :=
  match o with
  | .next x => f x
  | .fault e => .fault e
  | .refused r => .refused r

/-- The operation: bit i of the result is 1 exactly when bit i of both is (40_and_a.md R75). -/
def and8 (x y : Byte) : Byte := x &&& y

/-- `hi ∥ lo`, a 16-bit value from two bytes (00_scope.md R6). -/
def join (hi lo : Byte) : Offset := hi ++ lo

/-- `sext_16(v)`: `v` if `v[7] = 0`, else `FF00H + v` (00_scope.md R8). -/
def sext16 (v : Byte) : Offset := v.signExtend 16

/-- `pc <- (pc + n) mod 2^PC_BITS` (10_state.md R29). -/
def State.advance (s : State) (n : Nat) : State := s.withPC ((s.pc + n) % 2 ^ s.params.pcBits)

/-- Does one of the ranges hold the address. -/
def inRegions (regions : List Region) (addr : Nat) : Bool :=
  regions.any fun r => decide (r.base ≤ addr) && decide (addr < r.base + r.size)

/-- `PHYS_BITS`: the width of a physical data address (00_scope.md R5). -/
def physBits (p : Params) : Nat := if p.paged then p.pageBits + 16 else 16

/-- `pa(P, off)`: page ∥ offset when `PAGED`, the offset alone when not (20_memory.md R36). `page` is the value of a page
register, read as its `PAGE_BITS` bits (log 8). -/
def physAddr (p : Params) (page : Nat) (off : Offset) : Nat :=
  if p.paged then page % 2 ^ p.pageBits * 65536 + off.toNat else off.toNat

/-- `Mapped(pa)` (20_memory.md R52): an address of the physical space that the platform does not leave out. -/
def mapped (p : Params) (addr : Nat) : Bool := decide (addr < 2 ^ physBits p) && !inRegions p.unmapped addr

/-- `SideEffect(pa)` (20_memory.md R52). -/
def sideEffect (p : Params) (addr : Nat) : Bool := inRegions p.sideEffect addr

/-- `CodeRegion(pa)` (20_memory.md R58). -/
def codeRegion (p : Params) (addr : Nat) : Bool := inRegions p.codeRegion addr

/-- A data access of either kind: stuck where `Mapped` is false, refused where `SideEffect` is true (20_memory.md R52;
which of the two is reported where both hold: log 11). -/
def checkAccess (p : Params) (addr : Nat) : Host.Outcome Unit Fault Refusal :=
  if mapped p addr then
    if sideEffect p addr then .refused (.sideEffect addr) else .next ()
  else .fault (.unmapped addr)

/-- `MemRead(pa, 1)` (20_memory.md R44, R52). -/
def memRead (s : State) (addr : Nat) : Host.Outcome Byte Fault Refusal :=
  andThen (checkAccess s.params addr) fun _ => .next (s.mem.byte addr)

/-- `MemWrite(pa, 1, v)` (20_memory.md R45, R52); refused in the code region (R58). -/
def memWrite (s : State) (addr : Nat) (v : Byte) : Outcome :=
  andThen (checkAccess s.params addr) fun _ =>
    if codeRegion s.params addr then .refused (.codeWrite addr) else .next (s.withMem (s.mem.store addr v))

/-- The reads of `AND [HL], [ir]`: the byte at `src` and the byte at `dst`, in the open order of 20_memory.md R50. A read
that is admitted changes nothing, so the order shows only where both reads stop: the free value says which of the two
was performed first (log 10). -/
def readPair (s : State) (src dst : Nat) : Host.Outcome (Byte × Byte) Fault Refusal :=
  match memRead s src, memRead s dst with
  | .next v, .next m => .next (v, m)
  | .next _, .fault e => .fault e
  | .next _, .refused r => .refused r
  | .fault e, .next _ => .fault e
  | .refused r, .next _ => .refused r
  | .fault e, .fault e' => .fault (if Config.freeReadOrder s.choices then e else e')
  | .refused r, .refused r' => .refused (if Config.freeReadOrder s.choices then r else r')
  | .fault e, .refused r => if Config.freeReadOrder s.choices then .fault e else .refused r
  | .refused r, .fault e => if Config.freeReadOrder s.choices then .refused r else .fault e

end Sys2Proof.Machine
end

