-- ==== Sys2Proof/Machine/Flags.lean ====
section
/-! DEFINITION. The flags of SC: their places (10_state.md R21) and the one flag computation of the fragment, `setNZ`
(R23). -/

namespace Sys2Proof.Machine

/-- The bit of SC a flag stands at (10_state.md R21). -/
def flagBit (f : Flag) : Nat :=
  match f with
  | .i1 => 7
  | .i0 => 6
  | .u => 5
  | .d => 4
  | .n => 3
  | .v => 2
  | .c => 1
  | .z => 0

/-- The value of a flag. -/
def State.flag (s : State) (f : Flag) : Bool := s.sc.getLsbD (flagBit f)

/-- SC after `setNZ(v)`: N is bit 7 of `v`, Z says whether `v` is 00H (10_state.md R23), the other six flags are kept
(R24, R25). -/
def nzOf (v sc : Byte) : Byte :=
  (sc &&& 0xF6#8) ||| (if v.getLsbD 7 then 0x08#8 else 0x00#8) ||| (if v = 0x00#8 then 0x01#8 else 0x00#8)

/-- `setNZ(v)` (10_state.md R23). -/
def State.setNZ (s : State) (v : Byte) : State := s.withSC (nzOf v s.sc)

end Sys2Proof.Machine
end

