-- ==== Sys2Proof/Machine/Operands.lean ====
section
/-! DEFINITION. Effective addresses, one per addressing mode (20_memory.md R37 to R43), and an assembler operand's place
and value (30_encoding.md R72). -/

namespace Sys2Proof.Machine

/-- HL, the pair `H ∥ L` (10_state.md R17). -/
def State.hl (s : State) : Offset := join s.h s.l

/-- `[HL]` (20_memory.md R38). -/
def eaHL (s : State) : Nat := physAddr s.params s.ep s.hl

/-- `[BR:ll]` (20_memory.md R39). -/
def eaBR (s : State) (ll : Byte) : Nat := physAddr s.params s.ep (join s.br ll)

/-- `[hhll]` (20_memory.md R40). -/
def eaAbs (s : State) (ll hh : Byte) : Nat := physAddr s.params s.ep (join hh ll)

/-- `[IX]` (20_memory.md R41). -/
def eaIX (s : State) : Nat := physAddr s.params s.xp s.ix

/-- `[IY]` (20_memory.md R41). -/
def eaIY (s : State) : Nat := physAddr s.params s.yp s.iy

/-- `[IX+dd]`, the sum modulo 2^16 and the page apart from it (20_memory.md R42). -/
def eaIXd (s : State) (dd : Byte) : Nat := physAddr s.params s.xp (s.ix + sext16 dd)

/-- `[IY+dd]` (20_memory.md R42). -/
def eaIYd (s : State) (dd : Byte) : Nat := physAddr s.params s.yp (s.iy + sext16 dd)

/-- `[IX+L]` (20_memory.md R43). -/
def eaIXL (s : State) : Nat := physAddr s.params s.xp (s.ix + sext16 s.l)

/-- `[IY+L]` (20_memory.md R43). -/
def eaIYL (s : State) : Nat := physAddr s.params s.yp (s.iy + sext16 s.l)

/-- The physical address of a bracketed operand; none for a register or an immediate (20_memory.md R37). -/
def operandAddr (o : Operand) (s : State) : Option Nat :=
  match o with
  | .a | .b | .h | .l | .sc | .imm _ => none
  | .mBR ll => some (eaBR s ll)
  | .mAbs ll hh => some (eaAbs s ll hh)
  | .mHL => some (eaHL s)
  | .mIX => some (eaIX s)
  | .mIY => some (eaIY s)
  | .mIXd dd => some (eaIXd s dd)
  | .mIYd dd => some (eaIYd s dd)
  | .mIXL => some (eaIXL s)
  | .mIYL => some (eaIYL s)

/-- The 8-bit value an operand stands for: the register's content, the immediate, or the byte of data memory (00_scope.md
R10). Whether the platform admits the access is another matter. -/
def operandValue (o : Operand) (s : State) : Byte :=
  match o with
  | .a => s.a
  | .b => s.b
  | .h => s.h
  | .l => s.l
  | .sc => s.sc
  | .imm nn => nn
  | .mBR ll => s.mem.byte (eaBR s ll)
  | .mAbs ll hh => s.mem.byte (eaAbs s ll hh)
  | .mHL => s.mem.byte (eaHL s)
  | .mIX => s.mem.byte (eaIX s)
  | .mIY => s.mem.byte (eaIY s)
  | .mIXd dd => s.mem.byte (eaIXd s dd)
  | .mIYd dd => s.mem.byte (eaIYd s dd)
  | .mIXL => s.mem.byte (eaIXL s)
  | .mIYL => s.mem.byte (eaIYL s)

end Sys2Proof.Machine
end

