-- ==== Sys2Proof/Machine/AndA.lean ====
section
/-! DEFINITION. AND with destination A (40_and_a.md), one meaning per encoding over two shared operations. -/

namespace Sys2Proof.Machine

/-- `t <- A & src; A <- t; setNZ(t); pc <- pc + len` (40_and_a.md R76). -/
def andIntoA (s : State) (src : Byte) (len : Nat) : State :=
  let t := and8 s.a src
  ((s.withA t).setNZ t).advance len

/-- The same with the source byte read from data memory (40_and_a.md R76, R80). -/
def andMemIntoA (s : State) (ea len : Nat) : Outcome :=
  andThen (memRead s ea) fun v => .next (andIntoA s v len)

/-- `AND A, A` (R77). -/
def execAndAA (s : State) : Outcome := .next (andIntoA s s.a 1)

/-- `AND A, B` (R78). -/
def execAndAB (s : State) : Outcome := .next (andIntoA s s.b 1)

/-- `AND A, #nn` (R79). -/
def execAndAImm (nn : Byte) (s : State) : Outcome := .next (andIntoA s nn 2)

/-- `AND A, [BR:ll]` (R80). -/
def execAndAMBR (ll : Byte) (s : State) : Outcome := andMemIntoA s (eaBR s ll) 2

/-- `AND A, [hhll]` (R81). -/
def execAndAMAbs (ll hh : Byte) (s : State) : Outcome := andMemIntoA s (eaAbs s ll hh) 3

/-- `AND A, [HL]` (R82). -/
def execAndAMHL (s : State) : Outcome := andMemIntoA s (eaHL s) 1

/-- `AND A, [IX]` (R83). -/
def execAndAMIX (s : State) : Outcome := andMemIntoA s (eaIX s) 1

/-- `AND A, [IY]` (R84). -/
def execAndAMIY (s : State) : Outcome := andMemIntoA s (eaIY s) 1

/-- `AND A, [IX+dd]` (R85). -/
def execAndAMIXd (dd : Byte) (s : State) : Outcome := andMemIntoA s (eaIXd s dd) 3

/-- `AND A, [IY+dd]` (R86). -/
def execAndAMIYd (dd : Byte) (s : State) : Outcome := andMemIntoA s (eaIYd s dd) 3

/-- `AND A, [IX+L]` (R87). -/
def execAndAMIXL (s : State) : Outcome := andMemIntoA s (eaIXL s) 2

/-- `AND A, [IY+L]` (R88). -/
def execAndAMIYL (s : State) : Outcome := andMemIntoA s (eaIYL s) 2

end Sys2Proof.Machine
end

