-- ==== Sys2Proof/Machine/AndMem.lean ====
section
/-! DEFINITION. AND with a memory destination (42_and_mem.md), one meaning per encoding over shared operations. -/

namespace Sys2Proof.Machine

/-- The end of a memory-destination AND: the result `t` to `ea`, N and Z from it (unless `writesNZ` is false), the pc
advance (42_and_mem.md R93; 20_memory.md R50). -/
def storeResult (s : State) (ea : Nat) (t : Byte) (writesNZ : Bool) (len : Nat) : Outcome :=
  andThen (memWrite s ea t) fun s' => .next ((if writesNZ then s'.setNZ t else s').advance len)

/-- `m <- MemRead(ea, 1); t <- m & src; MemWrite(ea, 1, t); setNZ(t); pc <- pc + len` (42_and_mem.md R93). -/
def andIntoMem (s : State) (ea : Nat) (src : Byte) (writesNZ : Bool) (len : Nat) : Outcome :=
  andThen (memRead s ea) fun m => storeResult s ea (and8 m src) writesNZ len

/-- The same with the source byte read from data memory too, the two reads in the open order (42_and_mem.md R97, R98;
20_memory.md R50). -/
def andMemIntoMem (s : State) (dst src len : Nat) : Outcome :=
  andThen (readPair s src dst) fun r => storeResult s.useChoice dst (and8 r.2 r.1) true len

/-- `AND [BR:ll], #nn` (R94, with its switch `AND_BRLL_IMM_WRITES_NZ`). -/
def execAndMBRImm (ll nn : Byte) (s : State) : Outcome := andIntoMem s (eaBR s ll) nn s.params.brllImmWritesNZ 3

/-- `AND [HL], A` (R95). -/
def execAndMHLA (s : State) : Outcome := andIntoMem s (eaHL s) s.a true 2

/-- `AND [HL], #nn` (R96). -/
def execAndMHLImm (nn : Byte) (s : State) : Outcome := andIntoMem s (eaHL s) nn true 3

/-- `AND [HL], [IX]` (R97). -/
def execAndMHLMIX (s : State) : Outcome := andMemIntoMem s (eaHL s) (eaIX s) 2

/-- `AND [HL], [IY]` (R98). -/
def execAndMHLMIY (s : State) : Outcome := andMemIntoMem s (eaHL s) (eaIY s) 2

end Sys2Proof.Machine
end

