-- ==== Sys2Proof/Machine/AndRegImm.lean ====
section
/-! DEFINITION. AND of an immediate into B, L, H and SC (41_and_reg_imm.md). -/

namespace Sys2Proof.Machine

/-- `AND B, #nn`: `t <- B & nn; B <- t; setNZ(t); pc <- pc + 3` (R89). -/
def execAndBImm (nn : Byte) (s : State) : Outcome :=
  let t := and8 s.b nn
  .next (((s.withB t).setNZ t).advance 3)

/-- `AND L, #nn`: `t <- L & nn; L <- t; setNZ(t); pc <- pc + 3` (R90). -/
def execAndLImm (nn : Byte) (s : State) : Outcome :=
  let t := and8 s.l nn
  .next (((s.withL t).setNZ t).advance 3)

/-- `AND H, #nn`: `t <- H & nn; H <- t; setNZ(t); pc <- pc + 3` (R91). -/
def execAndHImm (nn : Byte) (s : State) : Outcome :=
  let t := and8 s.h nn
  .next (((s.withH t).setNZ t).advance 3)

/-- `AND SC, #nn`: `SC <- SC & nn; pc <- pc + 2`, with no `setNZ` (R92, 10_state.md R26). -/
def execAndSCImm (nn : Byte) (s : State) : Outcome :=
  .next ((s.withSC (and8 s.sc nn)).advance 2)

end Sys2Proof.Machine
end

