-- ==== Sys2Proof/Machine/Dispatch.lean ====
section
/-! DEFINITION. One arm per constructor of Instr. -/

namespace Sys2Proof.Machine

def exec (i : Instr) (s : State) : Host.Outcome State Fault Refusal :=
  match i with
  | .andAA => Sys2Proof.Machine.execAndAA s
  | .andAB => Sys2Proof.Machine.execAndAB s
  | .andAImm nn => Sys2Proof.Machine.execAndAImm nn s
  | .andAMHL => Sys2Proof.Machine.execAndAMHL s
  | .andAMBR ll => Sys2Proof.Machine.execAndAMBR ll s
  | .andAMAbs ll hh => Sys2Proof.Machine.execAndAMAbs ll hh s
  | .andAMIX => Sys2Proof.Machine.execAndAMIX s
  | .andAMIY => Sys2Proof.Machine.execAndAMIY s
  | .andSCImm nn => Sys2Proof.Machine.execAndSCImm nn s
  | .andMBRImm ll nn => Sys2Proof.Machine.execAndMBRImm ll nn s
  | .andAMIXd dd => Sys2Proof.Machine.execAndAMIXd dd s
  | .andAMIYd dd => Sys2Proof.Machine.execAndAMIYd dd s
  | .andAMIXL => Sys2Proof.Machine.execAndAMIXL s
  | .andAMIYL => Sys2Proof.Machine.execAndAMIYL s
  | .andMHLA => Sys2Proof.Machine.execAndMHLA s
  | .andMHLImm nn => Sys2Proof.Machine.execAndMHLImm nn s
  | .andMHLMIX => Sys2Proof.Machine.execAndMHLMIX s
  | .andMHLMIY => Sys2Proof.Machine.execAndMHLMIY s
  | .andBImm nn => Sys2Proof.Machine.execAndBImm nn s
  | .andLImm nn => Sys2Proof.Machine.execAndLImm nn s
  | .andHImm nn => Sys2Proof.Machine.execAndHImm nn s

end Sys2Proof.Machine
end

