-- ==== Sys2Proof/Machine/Fetch.lean ====
section
/-! DEFINITION. The instruction stream: `Fetch` (10_state.md R28), the bytes at pc, and the loading of bytes at pc that
stands for a launch (log 5). -/

namespace Sys2Proof.Machine

/-- `Fetch(a)`: the byte of the text at `a mod 2^PC_BITS`, if the text has one (10_state.md R28). -/
def fetch (s : State) (addr : Nat) : Option Byte := cellAt s.text (addr % 2 ^ s.params.pcBits)

/-- The bytes that can be fetched from `addr` on without a gap, at most `n` of them. -/
def fetchRun (s : State) (addr n : Nat) : List Byte :=
  match n with
  | 0 => []
  | n + 1 =>
    match fetch s addr with
    | none => []
    | some v => v :: fetchRun s (addr + 1) n

/-- What the decoder is given: the bytes at pc, as many as the longest instruction has (30_encoding.md R59). `Fetch` has
no side effect (10_state.md R28), so offering a byte that the instruction does not need changes nothing. -/
def fetchWindow (s : State) : List Byte := fetchRun s s.pc maxLength

/-- The text with bytes put at `addr` and the addresses after it, modulo `2^PC_BITS` (10_state.md R28). -/
def putBytes (pcBits : Nat) (text : Text) (addr : Nat) (bytes : List Byte) : Text :=
  match bytes with
  | [] => text
  | v :: rest => putBytes pcBits (putCell text (addr % 2 ^ pcBits) v) (addr + 1) rest

/-- The state with bytes placed in the text where the next instruction is fetched. -/
def State.loadAtPC (s : State) (bytes : List Byte) : State :=
  s.withText (putBytes s.params.pcBits s.text s.pc bytes)

end Sys2Proof.Machine
end

