-- ==== Sys2Proof/Machine/Step.lean ====
section
/-! DEFINITION. One step: the bytes at pc, decoded, executed (10_state.md R27, R28; 30_encoding.md R68, R71). An
instruction is one step and nothing happens between two (60_exceptions.md R102; log 12). -/

namespace Sys2Proof.Machine

/-- One step. A not-shown encoding is refused (30_encoding.md R68); a byte that cannot be fetched leaves the machine stuck
(10_state.md R28). -/
def step (s : State) : Host.Outcome State Fault Refusal :=
  match decode (fetchWindow s) with
  | .instr i => exec i s
  | .notShown opcode => .refused (.notShown opcode)
  | .needByte k => .fault (.noFetch ((s.pc + k) % 2 ^ s.params.pcBits))

/-- The state with the instruction of an opcode-table word in the text at pc (log 5, log 21). -/
def State.withFetchWord (s : State) (nbits w : Nat) : State := s.loadAtPC (paddedTableBytes nbits w)

end Sys2Proof.Machine
end

