-- ==== Sys2Proof/Machine/Timing.lean ====
section
/-! DEFINITION. The cycle counts as the source prints them (70_reset_and_hazards.md R121) and the data accesses per
encoding (20_memory.md R49). Tables only: the model has no clock and no rule depends on a count (R121, R122; log 19). -/

namespace Sys2Proof.Machine

/-- Cycles as printed (70_reset_and_hazards.md R121). -/
def cycles (i : Instr) : Nat :=
  match i with
  | .andAA | .andAB | .andAImm _ | .andAMBR _ | .andAMHL | .andAMIX | .andAMIY | .andAMIXd _ | .andAMIYd _ => 2
  | .andBImm _ | .andLImm _ | .andHImm _ | .andSCImm _ => 3
  | .andAMAbs _ _ | .andAMIXL | .andAMIYL | .andMHLA => 4
  | .andMBRImm _ _ | .andMHLImm _ | .andMHLMIX | .andMHLMIY => 5

/-- Data reads per encoding (20_memory.md R49). -/
def dataReads (i : Instr) : Nat :=
  match i with
  | .andAA | .andAB | .andAImm _ | .andBImm _ | .andLImm _ | .andHImm _ | .andSCImm _ => 0
  | .andAMBR _ | .andAMAbs _ _ | .andAMHL | .andAMIX | .andAMIY | .andAMIXd _ | .andAMIYd _ | .andAMIXL
  | .andAMIYL | .andMBRImm _ _ | .andMHLA | .andMHLImm _ => 1
  | .andMHLMIX | .andMHLMIY => 2

/-- Data writes per encoding (20_memory.md R49). -/
def dataWrites (i : Instr) : Nat :=
  match i with
  | .andAA | .andAB | .andAImm _ | .andBImm _ | .andLImm _ | .andHImm _ | .andSCImm _ | .andAMBR _ | .andAMAbs _ _
  | .andAMHL | .andAMIX | .andAMIY | .andAMIXd _ | .andAMIYd _ | .andAMIXL | .andAMIYL => 0
  | .andMBRImm _ _ | .andMHLA | .andMHLImm _ | .andMHLMIX | .andMHLMIY => 1

end Sys2Proof.Machine
end

