-- ==== Sys2Proof/Safety.lean ====
section
/-! DEFINITION. What claims are stated in: the data accesses of an instruction and the launch premises CodeAdmitted and
DataAdmitted (20_memory.md R49, R50; 70_reset_and_hazards.md R116), the invariant of the state, the end of a run (R120),
and names for what an instruction may keep or change. -/

namespace Sys2Proof.Machine

/-- A data access of one byte (20_memory.md R44, R45). -/
inductive Access where
  | read (addr : Nat)
  | write (addr : Nat)
  deriving DecidableEq, Repr

/-- The reads an operand takes: one if it is bracketed (20_memory.md R49). -/
def operandReads (o : Operand) (s : State) : List Access := (operandAddr o s).toList.map .read

/-- The write a destination takes: one if it is bracketed (20_memory.md R49). -/
def operandWrites (o : Operand) (s : State) : List Access := (operandAddr o s).toList.map .write

/-- The data accesses of an instruction in order: the read or reads, in the open order where there are two, then the write
(20_memory.md R49, R50). -/
def accesses (i : Instr) (s : State) : List Access :=
  (if Config.freeReadOrder s.choices then operandReads i.operands.src s ++ operandReads i.operands.dst s
    else operandReads i.operands.dst s ++ operandReads i.operands.src s) ++ operandWrites i.operands.dst s

/-- Why an access stops, if it does: stuck where unmapped, refused where it has a side effect (20_memory.md R52), a write
refused in the code region (R58). -/
def accessStop (p : Params) (acc : Access) : Option (Fault ⊕ Refusal) :=
  match acc with
  | .read addr =>
    if mapped p addr = false then some (.inl (.unmapped addr))
    else if sideEffect p addr then some (.inr (.sideEffect addr)) else none
  | .write addr =>
    if mapped p addr = false then some (.inl (.unmapped addr))
    else if sideEffect p addr then some (.inr (.sideEffect addr))
    else if codeRegion p addr then some (.inr (.codeWrite addr)) else none

/-- The premise `DataAdmitted` for one instruction (70_reset_and_hazards.md R116): no access of it stops. -/
def DataAdmitted (i : Instr) (s : State) : Prop := ∀ acc ∈ accesses i s, accessStop s.params acc = none

/-- The premise `CodeAdmitted` for one step (70_reset_and_hazards.md R116): the bytes at pc are those of `i`. -/
def CodeAdmitted (i : Instr) (s : State) : Prop :=
  ∀ k, k < (encode i).length → fetch s (s.pc + k) = (encode i)[k]?

/-- A read at `ea` is admitted: `Mapped` and not `SideEffect` (20_memory.md R52). -/
def Readable (s : State) (ea : Nat) : Prop := mapped s.params ea = true ∧ sideEffect s.params ea = false

/-- A read and a write at `ea` are admitted: `Readable`, and not in the code region (20_memory.md R52, R58). -/
def Writable (s : State) (ea : Nat) : Prop := Readable s ea ∧ codeRegion s.params ea = false

/-- Each page register holds a value of its width (10_state.md R20; log 8). -/
abbrev State.pagesFit (s : State) : Prop :=
  s.ep < 2 ^ s.params.pageBits ∧ s.xp < 2 ^ s.params.pageBits ∧ s.yp < 2 ^ s.params.pageBits

/-- Data memory is in canonical form and lists only addresses of the physical space (20_memory.md R35; log 7). -/
abbrev State.memFits (s : State) : Prop := Memory.wf s.mem ∧ ∀ c ∈ s.mem, c.1 < 2 ^ physBits s.params

/-- The text is in canonical form and lists only program addresses (10_state.md R28). -/
abbrev State.textFits (s : State) : Prop := Rising s.text ∧ ∀ c ∈ s.text, c.1 < 2 ^ s.params.pcBits

/-- The invariant of the model: every value of an open width fits it, and both memories are canonical and inside their
spaces. -/
abbrev State.wf (s : State) : Prop :=
  s.pagesFit ∧ s.pc < 2 ^ s.params.pcBits ∧ s.memFits ∧ s.textFits

/-- The text occupies exactly the `size` program addresses from `base` on, modulo `2^PC_BITS`
(70_reset_and_hazards.md R120). -/
def Occupies (s : State) (base size : Nat) : Prop :=
  ∀ k, k < 2 ^ s.params.pcBits → ((fetch s (base + k)).isSome ↔ k < size)

/-- The end of a run: pc is the address after the text (70_reset_and_hazards.md R120; log 20), `base + size` taken modulo
`2^PC_BITS`. Where the text fills the whole program space (`size = 2^PC_BITS`) `base + size` is no value of pc and R120 is
silent: the modulo reading makes a state with pc = base `Final`, the launch among them, and the step there runs the text
again. DESIGN CHOICE (log 24). -/
def Final (s : State) (base size : Nat) : Prop :=
  Occupies s base size ∧ s.pc = (base + size) % 2 ^ s.params.pcBits

/-- A platform of plain memory: no hole, no device, no code seen as data (20_memory.md R53 leaves this open). -/
def PlainPlatform (p : Params) : Prop := p.unmapped = [] ∧ p.sideEffect = [] ∧ p.codeRegion = []

/-- N is bit 7 of the result, Z says whether it is 00H, the other six flags are kept (10_state.md R23 to R25). -/
def NZFrom (v : Byte) (s t : State) : Prop :=
  t.flag .n = v.getLsbD 7 ∧ t.flag .z = decide (v = 0x00#8) ∧
    ∀ f, f ≠ .n → f ≠ .z → t.flag f = s.flag f

/-- BR, IX, IY and the page registers are kept (no encoding writes one: 10_state.md R18 to R20). -/
def KeepsAddressRegs (s t : State) : Prop :=
  t.br = s.br ∧ t.ix = s.ix ∧ t.iy = s.iy ∧ t.ep = s.ep ∧ t.xp = s.xp ∧ t.yp = s.yp

/-- The program text and the parameters are kept (10_state.md R30). -/
def KeepsLaunch (s t : State) : Prop := t.text = s.text ∧ t.params = s.params

/-- Every byte of data memory reads as before. -/
def KeepsMemory (s t : State) : Prop := ∀ addr, t.mem.byte addr = s.mem.byte addr

/-- Every byte of data memory but the one at `ea` reads as before. -/
def KeepsMemoryBut (ea : Nat) (s t : State) : Prop := ∀ addr, addr ≠ ea → t.mem.byte addr = s.mem.byte addr

/-- pc has advanced by `n` modulo `2^PC_BITS` (10_state.md R29). -/
def Advanced (n : Nat) (s t : State) : Prop := t.pc = (s.pc + n) % 2 ^ s.params.pcBits

/-- `t` is `s` after `A <- A & v; setNZ(A); pc <- pc + len`, and nothing else (40_and_a.md R76). -/
def AndedIntoA (v : Byte) (len : Nat) (s t : State) : Prop :=
  t.a = s.a &&& v ∧ NZFrom (s.a &&& v) s t ∧ Advanced len s t ∧
    t.b = s.b ∧ t.h = s.h ∧ t.l = s.l ∧ KeepsAddressRegs s t ∧ KeepsMemory s t ∧ KeepsLaunch s t

/-- `t` is `s` after the byte at `ea` became `m & v`, `m` its old value, with N and Z from the result when `nz`, the pc
advanced by `len`, and nothing else (42_and_mem.md R93). -/
def AndedIntoMem (ea : Nat) (v : Byte) (nz : Bool) (len : Nat) (s t : State) : Prop :=
  t.mem.byte ea = s.mem.byte ea &&& v ∧ KeepsMemoryBut ea s t ∧
    (nz = true → NZFrom (s.mem.byte ea &&& v) s t) ∧ (nz = false → t.sc = s.sc) ∧ Advanced len s t ∧
    t.a = s.a ∧ t.b = s.b ∧ t.h = s.h ∧ t.l = s.l ∧ KeepsAddressRegs s t ∧ KeepsLaunch s t

/-- The address an instruction stores to, if it stores: the address its meaning gives its destination
(42_and_mem.md R93: ea is computed once and used for both the read and the write). -/
def storeAddr (i : Instr) (s : State) : Option Nat :=
  match i with
  | .andMBRImm ll _ => some (eaBR s ll)
  | .andMHLA | .andMHLImm _ | .andMHLMIX | .andMHLMIY => some (eaHL s)
  | .andAA | .andAB | .andAImm _ | .andAMHL | .andAMBR _ | .andAMAbs _ _ | .andAMIX | .andAMIY | .andSCImm _
  | .andAMIXd _ | .andAMIYd _ | .andAMIXL | .andAMIYL | .andBImm _ | .andLImm _ | .andHImm _ => none

end Sys2Proof.Machine
end

