-- ==== Sys2Proof/Certificates/Slice0/Obligations.lean ====
section
/-! DEFINITION. The statements for the provers. Each docstring names the rules of spec/ it formalises, and where it rests
on a decision the spec marks as its own (`D<n>` of 92_eei_decisions.md) or on a choice of the model (log `<n>`). -/

open Sys2Proof Sys2Proof.Machine

/-! ### Encoding -/

/-- 30_encoding.md R71 ("Decode followed by encode is the identity on the 21 encodings"): the decoder reads every
encoded instruction back, with every operand at every value and whatever bytes follow, and reads an instruction from no
other bytes. -/
def Obligations.DecodeAndEncodeAgree : Prop :=
  (∀ (i : Instr) (rest : List Byte), i.wellFormed = true → decode (encode i ++ rest) = .instr i) ∧
  ∀ (bytes : List Byte) (i : Instr), decode bytes = .instr i → i.wellFormed = true ∧ ∃ rest, bytes = encode i ++ rest

/-- 30_encoding.md R61 and R62, the two opcode maps: the 21 encodings, each with any operand bytes and any bytes after it.
That 24H, 26H and 27H are the codes rests on the spec's own resolution of 90_conflicts.md C1 and C6; that the misprinted
06H and 07H are then "not shown", on R68, the spec's decision D15. -/
def Obligations.OpcodeMapsAsListed : Prop :=
  ∀ (x y : Byte) (rest : List Byte),
    decode (0x20#8 :: rest) = .instr .andAA ∧
    decode (0x21#8 :: rest) = .instr .andAB ∧
    decode (0x22#8 :: x :: rest) = .instr (.andAImm x) ∧
    decode (0x23#8 :: rest) = .instr .andAMHL ∧
    decode (0x24#8 :: x :: rest) = .instr (.andAMBR x) ∧
    decode (0x25#8 :: x :: y :: rest) = .instr (.andAMAbs x y) ∧
    decode (0x26#8 :: rest) = .instr .andAMIX ∧
    decode (0x27#8 :: rest) = .instr .andAMIY ∧
    decode (0x9C#8 :: x :: rest) = .instr (.andSCImm x) ∧
    decode (0xD8#8 :: x :: y :: rest) = .instr (.andMBRImm x y) ∧
    decode (0xCE#8 :: 0x20#8 :: x :: rest) = .instr (.andAMIXd x) ∧
    decode (0xCE#8 :: 0x21#8 :: x :: rest) = .instr (.andAMIYd x) ∧
    decode (0xCE#8 :: 0x22#8 :: rest) = .instr .andAMIXL ∧
    decode (0xCE#8 :: 0x23#8 :: rest) = .instr .andAMIYL ∧
    decode (0xCE#8 :: 0x24#8 :: rest) = .instr .andMHLA ∧
    decode (0xCE#8 :: 0x25#8 :: x :: rest) = .instr (.andMHLImm x) ∧
    decode (0xCE#8 :: 0x26#8 :: rest) = .instr .andMHLMIX ∧
    decode (0xCE#8 :: 0x27#8 :: rest) = .instr .andMHLMIY ∧
    decode (0xCE#8 :: 0xB0#8 :: x :: rest) = .instr (.andBImm x) ∧
    decode (0xCE#8 :: 0xB1#8 :: x :: rest) = .instr (.andLImm x) ∧
    decode (0xCE#8 :: 0xB2#8 :: x :: rest) = .instr (.andHImm x) ∧
    decode (0x06#8 :: rest) = .notShown [0x06#8] ∧
    decode (0x07#8 :: rest) = .notShown [0x07#8]

/-- 30_encoding.md R64: bit 0 of the opcode byte (26H/27H) or of the second opcode byte (CEH 20H/21H, 22H/23H, 26H/27H)
selects IX when 0 and IY when 1. -/
def Obligations.IndexSelectBit : Prop :=
  ∀ (ir : Bool) (dd : Byte) (rest : List Byte),
    let b : Byte := if ir then 0x01#8 else 0x00#8
    decode ((0x26#8 ||| b) :: rest) = .instr (if ir then .andAMIY else .andAMIX) ∧
    decode (0xCE#8 :: (0x20#8 ||| b) :: dd :: rest) = .instr (if ir then .andAMIYd dd else .andAMIXd dd) ∧
    decode (0xCE#8 :: (0x22#8 ||| b) :: rest) = .instr (if ir then .andAMIYL else .andAMIXL) ∧
    decode (0xCE#8 :: (0x26#8 ||| b) :: rest) = .instr (if ir then .andMHLMIY else .andMHLMIX)

/-- 30_encoding.md R68: the decoder says "not shown" exactly where byte 0 is none of the ten listed opcode bytes and not
CEH, or where byte 0 is CEH and byte 1 is none of the eleven listed ones. -/
def Obligations.NotShownExactlyOutsideTheMaps : Prop :=
  ∀ (bytes opcode : List Byte),
    decode bytes = .notShown opcode ↔
      (∃ b0 rest, bytes = b0 :: rest ∧ opcode = [b0] ∧
        b0 ∉ [0x20#8, 0x21#8, 0x22#8, 0x23#8, 0x24#8, 0x25#8, 0x26#8, 0x27#8, 0x9C#8, 0xD8#8, 0xCE#8]) ∨
      ∃ b1 rest, bytes = 0xCE#8 :: b1 :: rest ∧ opcode = [0xCE#8, b1] ∧
        b1 ∉ [0x20#8, 0x21#8, 0x22#8, 0x23#8, 0x24#8, 0x25#8, 0x26#8, 0x27#8, 0xB0#8, 0xB1#8, 0xB2#8]

/-- 30_encoding.md R59, R67: the decoder needs exactly the bytes of the table of R59, no byte more and none less. -/
def Obligations.DecoderNeedsExactlyTheLength : Prop :=
  ∀ (bytes : List Byte) (i : Instr), decode bytes = .instr i →
    decode (bytes.take i.length) = .instr i ∧ ∀ k, k < i.length → decode (bytes.take k) = .needByte k

/-- 30_encoding.md R74: words of the opcode table, one number whose most significant byte is byte 0, decode to their
row's instruction (the numbering is log 21's reading). -/
def Obligations.TableWordsDecode : Prop :=
  decodeTableWord 8 0x20 = some .andAA ∧ decodeTableWord 8 0x26 = some .andAMIX ∧
  decodeTableWord 16 0x22A5 = some (.andAImm 0xA5#8) ∧ decodeTableWord 16 0x9C3F = some (.andSCImm 0x3F#8) ∧
  decodeTableWord 24 0x253412 = some (.andAMAbs 0x34#8 0x12#8) ∧
  decodeTableWord 24 0xD8340F = some (.andMBRImm 0x34#8 0x0F#8) ∧
  decodeTableWord 24 0xCE21FE = some (.andAMIYd 0xFE#8) ∧ decodeTableWord 16 0xCE26 = some .andMHLMIX ∧
  decodeTableWord 24 0xCEB1F0 = some (.andLImm 0xF0#8) ∧ decodeTableWord 8 0x28 = none ∧
  decodeTableWord 16 0xCEB3 = none

/-- 30_encoding.md R72: the assembler turns an operand pair into an instruction exactly when that instruction is written
with the pair; the legal pairs are the ones it accepts; `AND B, A`, `AND B, [HL]`, `AND [HL], B` and `AND [hhll], #nn`
have no encoding. -/
def Obligations.AssemblerAcceptsExactlyTheRows : Prop :=
  (∀ (p : AsmPair) (i : Instr), assemble p = some i ↔ i.operands = p) ∧
  (∀ p : AsmPair, p.wellFormed = true ↔ ∃ i, assemble p = some i) ∧
  ∀ ll hh nn : Byte, assemble ⟨.b, .a⟩ = none ∧ assemble ⟨.b, .mHL⟩ = none ∧ assemble ⟨.mHL, .b⟩ = none ∧
    assemble ⟨.mAbs ll hh, .imm nn⟩ = none

/-! ### The step -/

/-- 10_state.md R27, R28 and 30_encoding.md R71: where the bytes at pc are those of an instruction, the step is that
instruction's meaning and nothing else; the pc advance is the meaning's own. -/
def Obligations.StepRunsDecodedInstruction : Prop :=
  ∀ (i : Instr) (s : State), CodeAdmitted i s → step s = exec i s

/-- 30_encoding.md R68: a step at an encoding that is not shown is refused, with the opcode bytes, and has no other
outcome. -/
def Obligations.StepRefusesNotShown : Prop :=
  (∀ (s : State) (b0 : Byte), fetch s s.pc = some b0 →
    b0 ∉ [0x20#8, 0x21#8, 0x22#8, 0x23#8, 0x24#8, 0x25#8, 0x26#8, 0x27#8, 0x9C#8, 0xD8#8, 0xCE#8] →
    step s = .refused (.notShown [b0])) ∧
  ∀ (s : State) (b1 : Byte), fetch s s.pc = some 0xCE#8 → fetch s (s.pc + 1) = some b1 →
    b1 ∉ [0x20#8, 0x21#8, 0x22#8, 0x23#8, 0x24#8, 0x25#8, 0x26#8, 0x27#8, 0xB0#8, 0xB1#8, 0xB2#8] →
    step s = .refused (.notShown [0xCE#8, b1])

/-- 10_state.md R28 and 30_encoding.md R68: where the bytes at pc begin like an instruction and one it needs cannot be
fetched, the machine is stuck at that byte's address. -/
def Obligations.StepStuckWhereFetchHasNoValue : Prop :=
  ∀ (s : State) (i : Instr) (k : Nat), k < (encode i).length →
    (∀ j, j < k → fetch s (s.pc + j) = (encode i)[j]?) → fetch s (s.pc + k) = none →
    step s = .fault (.noFetch ((s.pc + k) % 2 ^ s.params.pcBits))

/-- 70_reset_and_hazards.md R116, 60_exceptions.md R99: a step has a next state exactly when the launch premises
CodeAdmitted and DataAdmitted hold of it; nothing else can stop an instruction. -/
def Obligations.StepCompletesExactlyWhenAdmitted : Prop :=
  ∀ s : State, (∃ t, step s = .next t) ↔ ∃ i, CodeAdmitted i s ∧ DataAdmitted i s

/-- 20_memory.md R50, R52, R58: an instruction is stopped by the first access of its list that is not admitted, by that
access's own reason, and completes when there is none. R52 and R58 do not say which reason is reported where an address
is both unmapped and side-effecting, or one of these and in the code region: unmapped first, then side effect, then code
write is the model's choice (`accessStop`; DESIGN CHOICE, log 11). The order of two open reads is the free value's
(log 10). -/
def Obligations.FirstStoppedAccessDecides : Prop :=
  ∀ (i : Instr) (s : State),
    match (accesses i s).findSome? (accessStop s.params) with
    | none => ∃ t, exec i s = .next t
    | some (.inl e) => exec i s = .fault e
    | some (.inr r) => exec i s = .refused r

/-- 10_state.md R29: a step advances pc by the length of the instruction at pc, modulo `2^PC_BITS` (the wrap is the
spec's decision D7). -/
def Obligations.StepAdvancesByTheLength : Prop :=
  ∀ s t : State, step s = .next t →
    ∃ i, CodeAdmitted i s ∧ 1 ≤ i.length ∧ i.length ≤ 3 ∧ t.pc = (s.pc + i.length) % 2 ^ s.params.pcBits

/-- The model's loading of an opcode-table word at pc (log 5, log 21): the next step runs the word's instruction. -/
def Obligations.PlacedWordRunsNext : Prop :=
  ∀ (s : State) (nbits w : Nat) (i : Instr), nbits ≤ 24 → 2 ≤ s.params.pcBits → decodeTableWord nbits w = some i →
    step (s.withFetchWord nbits w) = exec i (s.withFetchWord nbits w)

/-- 20_memory.md R46, 30_encoding.md R65: instruction bytes stand at ascending program addresses, the opcode byte (or CEH
and then the second opcode byte) first, then the operand bytes in the order of the code rows. Each form, with the bytes
it has and no others as premises. `25H, ll, hh` has its low address byte first: it addresses the byte at offset `hh ∥ ll`
of EP's page; `D8H, ll, nn` has its address byte before its data byte. (The two addresses rest on R36, R37, R39, R40 and
through them on the spec's decision D5.) -/
def Obligations.InstructionStreamByteOrder : Prop :=
  ∀ (s : State) (x y : Byte),
    (fetch s s.pc = some 0x20#8 → step s = exec .andAA s) ∧
    (fetch s s.pc = some 0x21#8 → step s = exec .andAB s) ∧
    (fetch s s.pc = some 0x23#8 → step s = exec .andAMHL s) ∧
    (fetch s s.pc = some 0x26#8 → step s = exec .andAMIX s) ∧
    (fetch s s.pc = some 0x27#8 → step s = exec .andAMIY s) ∧
    (fetch s (s.pc + 1) = some x →
      (fetch s s.pc = some 0x22#8 → step s = exec (.andAImm x) s) ∧
      (fetch s s.pc = some 0x24#8 → step s = exec (.andAMBR x) s) ∧
      (fetch s s.pc = some 0x9C#8 → step s = exec (.andSCImm x) s)) ∧
    (fetch s (s.pc + 1) = some x → fetch s (s.pc + 2) = some y →
      (fetch s s.pc = some 0x25#8 → step s = exec (.andAMAbs x y) s ∧
        operandAddr (Instr.andAMAbs x y).operands.src s = some (physAddr s.params s.ep (y ++ x))) ∧
      (fetch s s.pc = some 0xD8#8 → step s = exec (.andMBRImm x y) s ∧
        operandAddr (Instr.andMBRImm x y).operands.dst s = some (physAddr s.params s.ep (s.br ++ x)) ∧
        operandValue (Instr.andMBRImm x y).operands.src s = y)) ∧
    (fetch s s.pc = some 0xCE#8 →
      (fetch s (s.pc + 1) = some 0x22#8 → step s = exec .andAMIXL s) ∧
      (fetch s (s.pc + 1) = some 0x23#8 → step s = exec .andAMIYL s) ∧
      (fetch s (s.pc + 1) = some 0x24#8 → step s = exec .andMHLA s) ∧
      (fetch s (s.pc + 1) = some 0x26#8 → step s = exec .andMHLMIX s) ∧
      (fetch s (s.pc + 1) = some 0x27#8 → step s = exec .andMHLMIY s) ∧
      (fetch s (s.pc + 2) = some y →
        (fetch s (s.pc + 1) = some 0x20#8 → step s = exec (.andAMIXd y) s) ∧
        (fetch s (s.pc + 1) = some 0x21#8 → step s = exec (.andAMIYd y) s) ∧
        (fetch s (s.pc + 1) = some 0x25#8 → step s = exec (.andMHLImm y) s) ∧
        (fetch s (s.pc + 1) = some 0xB0#8 → step s = exec (.andBImm y) s) ∧
        (fetch s (s.pc + 1) = some 0xB1#8 → step s = exec (.andLImm y) s) ∧
        (fetch s (s.pc + 1) = some 0xB2#8 → step s = exec (.andHImm y) s)))

/-! ### Results and completion, per instruction -/

/-- 40_and_a.md R77, R78, R79: `AND A, A`, `AND A, B` and `AND A, #nn` complete in every state. `AND A, A` leaves A as it
was. -/
def Obligations.AndAFromRegisterOrImmediate : Prop :=
  ∀ (s : State) (nn : Byte),
    (∃ t, exec .andAA s = .next t ∧ AndedIntoA s.a 1 s t ∧ t.a = s.a) ∧
    (∃ t, exec .andAB s = .next t ∧ AndedIntoA s.b 1 s t) ∧
    ∃ t, exec (.andAImm nn) s = .next t ∧ AndedIntoA nn 2 s t

/-- 40_and_a.md R80, R81: `AND A, [BR:ll]` and `AND A, [hhll]` complete where the byte is readable. -/
def Obligations.AndAFromAbsoluteAddress : Prop :=
  ∀ (s : State) (ll hh : Byte),
    (Readable s (eaBR s ll) → ∃ t, exec (.andAMBR ll) s = .next t ∧ AndedIntoA (s.mem.byte (eaBR s ll)) 2 s t) ∧
    (Readable s (eaAbs s ll hh) →
      ∃ t, exec (.andAMAbs ll hh) s = .next t ∧ AndedIntoA (s.mem.byte (eaAbs s ll hh)) 3 s t)

/-- 40_and_a.md R82, R83, R84: `AND A, [HL]`, `AND A, [IX]` and `AND A, [IY]` complete where the byte is readable. -/
def Obligations.AndAFromRegisterIndirect : Prop :=
  ∀ s : State,
    (Readable s (eaHL s) → ∃ t, exec .andAMHL s = .next t ∧ AndedIntoA (s.mem.byte (eaHL s)) 1 s t) ∧
    (Readable s (eaIX s) → ∃ t, exec .andAMIX s = .next t ∧ AndedIntoA (s.mem.byte (eaIX s)) 1 s t) ∧
    (Readable s (eaIY s) → ∃ t, exec .andAMIY s = .next t ∧ AndedIntoA (s.mem.byte (eaIY s)) 1 s t)

/-- 40_and_a.md R85, R86: `AND A, [IX+dd]` and `AND A, [IY+dd]` complete where the byte is readable. -/
def Obligations.AndAWithDisplacement : Prop :=
  ∀ (s : State) (dd : Byte),
    (Readable s (eaIXd s dd) → ∃ t, exec (.andAMIXd dd) s = .next t ∧ AndedIntoA (s.mem.byte (eaIXd s dd)) 3 s t) ∧
    (Readable s (eaIYd s dd) → ∃ t, exec (.andAMIYd dd) s = .next t ∧ AndedIntoA (s.mem.byte (eaIYd s dd)) 3 s t)

/-- 40_and_a.md R87, R88: `AND A, [IX+L]` and `AND A, [IY+L]` complete where the byte is readable. -/
def Obligations.AndAWithIndexRegister : Prop :=
  ∀ s : State,
    (Readable s (eaIXL s) → ∃ t, exec .andAMIXL s = .next t ∧ AndedIntoA (s.mem.byte (eaIXL s)) 2 s t) ∧
    (Readable s (eaIYL s) → ∃ t, exec .andAMIYL s = .next t ∧ AndedIntoA (s.mem.byte (eaIYL s)) 2 s t)

/-- 41_and_reg_imm.md R89, R90, R91: `AND B, #nn`, `AND L, #nn` and `AND H, #nn` complete in every state; HL is `H ∥ L`
of the new halves. -/
def Obligations.AndImmediateIntoBLH : Prop :=
  ∀ (s : State) (nn : Byte),
    (∃ t, exec (.andBImm nn) s = .next t ∧ t.b = s.b &&& nn ∧ NZFrom (s.b &&& nn) s t ∧ Advanced 3 s t) ∧
    (∃ t, exec (.andLImm nn) s = .next t ∧ t.l = s.l &&& nn ∧ t.hl = s.h ++ (s.l &&& nn) ∧
      NZFrom (s.l &&& nn) s t ∧ Advanced 3 s t) ∧
    ∃ t, exec (.andHImm nn) s = .next t ∧ t.h = s.h &&& nn ∧ t.hl = (s.h &&& nn) ++ s.l ∧
      NZFrom (s.h &&& nn) s t ∧ Advanced 3 s t

/-- 10_state.md R26, with the per-flag form of 41_and_reg_imm.md R92: `AND SC, #nn` completes in every state as
`SC <- SC & nn`; each flag becomes the AND of its old value with its bit of nn, N and Z among them; 5AH AND A5H leaves
Z at 0. The pc advance is 10_state.md R29's, whose wrap is the spec's decision D7 (log 18). -/
def Obligations.AndImmediateIntoSC : Prop :=
  ∀ (s : State) (nn : Byte), ∃ t, exec (.andSCImm nn) s = .next t ∧ t.sc = s.sc &&& nn ∧ Advanced 2 s t ∧
    t.flag .i1 = (s.flag .i1 && nn.getLsbD 7) ∧ t.flag .i0 = (s.flag .i0 && nn.getLsbD 6) ∧
    t.flag .u = (s.flag .u && nn.getLsbD 5) ∧ t.flag .d = (s.flag .d && nn.getLsbD 4) ∧
    t.flag .n = (s.flag .n && nn.getLsbD 3) ∧ t.flag .v = (s.flag .v && nn.getLsbD 2) ∧
    t.flag .c = (s.flag .c && nn.getLsbD 1) ∧ t.flag .z = (s.flag .z && nn.getLsbD 0) ∧
    (s.sc = 0x5A#8 → nn = 0xA5#8 → t.sc = 0x00#8 ∧ t.flag .z = false)

/-- 42_and_mem.md R94: `AND [BR:ll], #nn` completes where its byte is readable and writable; with the switch
`AND_BRLL_IMM_WRITES_NZ` it writes N and Z, without it SC is unchanged (90_conflicts.md C3, log 6). -/
def Obligations.AndImmediateIntoBRll : Prop :=
  ∀ (s : State) (ll nn : Byte), Writable s (eaBR s ll) →
    ∃ t, exec (.andMBRImm ll nn) s = .next t ∧ AndedIntoMem (eaBR s ll) nn s.params.brllImmWritesNZ 3 s t

/-- 42_and_mem.md R95, R96: `AND [HL], A` and `AND [HL], #nn` complete where the byte is readable and writable. -/
def Obligations.AndIntoHLByte : Prop :=
  ∀ (s : State) (nn : Byte), Writable s (eaHL s) →
    (∃ t, exec .andMHLA s = .next t ∧ AndedIntoMem (eaHL s) s.a true 2 s t) ∧
    ∃ t, exec (.andMHLImm nn) s = .next t ∧ AndedIntoMem (eaHL s) nn true 3 s t

/-- 42_and_mem.md R97, R98: `AND [HL], [IX]` and `AND [HL], [IY]` complete where the source byte is readable and the
destination byte readable and writable. -/
def Obligations.AndMemoryIntoHLByte : Prop :=
  ∀ s : State, Writable s (eaHL s) →
    (Readable s (eaIX s) →
      ∃ t, exec .andMHLMIX s = .next t ∧ AndedIntoMem (eaHL s) (s.mem.byte (eaIX s)) true 2 s t) ∧
    (Readable s (eaIY s) →
      ∃ t, exec .andMHLMIY s = .next t ∧ AndedIntoMem (eaHL s) (s.mem.byte (eaIY s)) true 2 s t)

/-! ### Rules over all instructions -/

/-- 40_and_a.md R75: the operation bit by bit, its laws and the source's three examples; and it is the same function on
every one of the 21 encodings: whatever the operand pair, the destination's new value is the AND of its old value and
the source's. -/
def Obligations.OneAndForEveryEncoding : Prop :=
  (∀ (x y : Byte) (k : Nat), (and8 x y).getLsbD k = (x.getLsbD k && y.getLsbD k)) ∧
  (∀ x y z : Byte, and8 x y = and8 y x ∧ and8 (and8 x y) z = and8 x (and8 y z) ∧ and8 x x = x ∧
    and8 x 0xFF#8 = x ∧ and8 x 0x00#8 = 0x00#8 ∧ (and8 x y).toNat ≤ x.toNat ∧ (and8 x y).toNat ≤ y.toNat) ∧
  and8 0x3B#8 0x61#8 = 0x21#8 ∧ and8 0x5A#8 0xA5#8 = 0x00#8 ∧ and8 0xD6#8 0x93#8 = 0x92#8 ∧
  ∀ (i : Instr) (s t : State), exec i s = .next t →
    operandValue i.operands.dst t = and8 (operandValue i.operands.dst s) (operandValue i.operands.src s)

/-- 10_state.md R22, R23 (decision D8; 90_conflicts.md C3 for the switch): every encoding but `AND SC, #nn` sets N and Z
from the destination's new value and keeps the other six flags, `AND [BR:ll], #nn` while its switch says so. -/
def Obligations.NAndZFollowTheResult : Prop :=
  ∀ (i : Instr) (s t : State), (∀ nn, i ≠ .andSCImm nn) →
    ((∃ ll nn, i = .andMBRImm ll nn) → s.params.brllImmWritesNZ = true) → exec i s = .next t →
    NZFrom (operandValue i.operands.dst t) s t

/-- 10_state.md R24 (and the first sentence of R25): no encoding but `AND SC, #nn` changes V or C; nor I1, I0, U or D. -/
def Obligations.OtherFlagsChangeOnlyThroughSC : Prop :=
  ∀ (i : Instr) (s t : State), (∀ nn, i ≠ .andSCImm nn) → exec i s = .next t →
    t.flag .v = s.flag .v ∧ t.flag .c = s.flag .c ∧ t.flag .i1 = s.flag .i1 ∧ t.flag .i0 = s.flag .i0 ∧
      t.flag .u = s.flag .u ∧ t.flag .d = s.flag .d

/-- 10_state.md R25 (decision D10): with other flags in SC, every encoding but `AND SC, #nn` gives the same result and
the same N and Z, and otherwise the same state. -/
def Obligations.FlagsDoNotFeedTheResult : Prop :=
  ∀ (i : Instr) (s t : State) (sc : Byte), (∀ nn, i ≠ .andSCImm nn) → exec i s = .next t →
    ∃ t', exec i (s.withSC sc) = .next t' ∧ t'.withSC t.sc = t ∧
      (((∃ ll nn, i = .andMBRImm ll nn) → s.params.brllImmWritesNZ = true) →
        t'.flag .n = t.flag .n ∧ t'.flag .z = t.flag .z)

/-- 10_state.md R33 ("AND can only clear bits"), 40_and_a.md R75: no step sets a bit of A, B, H, L or of a byte of data
memory. -/
def Obligations.StepOnlyClearsBits : Prop :=
  ∀ s t : State, step s = .next t →
    t.a &&& s.a = t.a ∧ t.b &&& s.b = t.b ∧ t.h &&& s.h = t.h ∧ t.l &&& s.l = t.l ∧
      ∀ addr, t.mem.byte addr &&& s.mem.byte addr = t.mem.byte addr

/-- 10_state.md R18, R19, R20, R30: no step writes BR, IX, IY, a page register, the program text or a parameter. -/
def Obligations.StepKeepsAddressRegistersAndLaunch : Prop :=
  ∀ s t : State, step s = .next t → KeepsAddressRegs s t ∧ KeepsLaunch s t

/-! ### Frames -/

/-- Frame of the 12 encodings `AND A, src` (R76: A; B; #nn; [BR:ll]; [hhll]; [HL]; [IX]; [IY]; [IX+dd]; [IY+dd]; [IX+L];
[IY+L]): only A, N, Z and pc may change. -/
def Obligations.FrameOfAForms : Prop :=
  ∀ (i : Instr) (s t : State), i.operands.dst = .a → exec i s = .next t →
    t.b = s.b ∧ t.h = s.h ∧ t.l = s.l ∧ KeepsAddressRegs s t ∧ KeepsLaunch s t ∧ KeepsMemory s t ∧
      ∀ f, f ≠ .n → f ≠ .z → t.flag f = s.flag f

/-- Frame of `AND B, #nn`, `AND L, #nn`, `AND H, #nn` (R89 to R91): only the named register, N, Z and pc may change. -/
def Obligations.FrameOfBLHForms : Prop :=
  ∀ (i : Instr) (nn : Byte) (s t : State), i = .andBImm nn ∨ i = .andLImm nn ∨ i = .andHImm nn → exec i s = .next t →
    t.a = s.a ∧ (i ≠ .andBImm nn → t.b = s.b) ∧ (i ≠ .andLImm nn → t.l = s.l) ∧ (i ≠ .andHImm nn → t.h = s.h) ∧
      KeepsAddressRegs s t ∧ KeepsLaunch s t ∧ KeepsMemory s t ∧ ∀ f, f ≠ .n → f ≠ .z → t.flag f = s.flag f

/-- Frame of `AND SC, #nn` (R92): only SC, the destination, and pc may change, and no flag is set. -/
def Obligations.FrameOfSCForm : Prop :=
  ∀ (nn : Byte) (s t : State), exec (.andSCImm nn) s = .next t →
    t.a = s.a ∧ t.b = s.b ∧ t.h = s.h ∧ t.l = s.l ∧ KeepsAddressRegs s t ∧ KeepsLaunch s t ∧ KeepsMemory s t ∧
      ∀ f, t.flag f = true → s.flag f = true

/-- Frame of the five memory-destination encodings (R93: [BR:ll], #nn; [HL], A; [HL], #nn; [HL], [IX]; [HL], [IY]): only
N, Z, pc and the byte at the address the meaning stores to may change. -/
def Obligations.FrameOfMemoryForms : Prop :=
  ∀ (i : Instr) (s t : State) (ea : Nat), storeAddr i s = some ea → exec i s = .next t →
    t.a = s.a ∧ t.b = s.b ∧ t.h = s.h ∧ t.l = s.l ∧ KeepsAddressRegs s t ∧ KeepsLaunch s t ∧
      KeepsMemoryBut ea s t ∧ ∀ f, f ≠ .n → f ≠ .z → t.flag f = s.flag f

/-- 20_memory.md R45: MemWrite replaces the byte at its address and changes no other byte; it is performed only by the
five memory-destination encodings, once each, to an address the instruction reads first. -/
def Obligations.MemWriteChangesOneByte : Prop :=
  (∀ (s t : State) (addr : Nat) (v : Byte), memWrite s addr v = .next t →
    t.mem.byte addr = v ∧ ∀ other, other ≠ addr → t.mem.byte other = s.mem.byte other) ∧
  (∀ (i : Instr) (s t : State), storeAddr i s = none → exec i s = .next t →
    KeepsMemory s t ∧ ∀ addr, Access.write addr ∉ accesses i s) ∧
  ∀ (i : Instr) (s : State) (ea : Nat), storeAddr i s = some ea →
    ∃ reads, accesses i s = reads ++ [.write ea] ∧ .read ea ∈ reads ∧ ∀ addr, Access.write addr ∉ reads

/-- 20_memory.md R49: each encoding reads and writes data memory as often as the table says. -/
def Obligations.AccessesMatchTheTable : Prop :=
  ∀ (i : Instr) (s : State),
    (accesses i s).countP (fun acc => acc matches .read _) = dataReads i ∧
    (accesses i s).countP (fun acc => acc matches .write _) = dataWrites i

/-! ### Addresses -/

/-- 20_memory.md R35, R36 (decision D5): a paged address is page * 65536 + offset inside `PAGE_BITS + 16` bits, an
unpaged one the offset; different pages or offsets are different paged addresses. -/
def Obligations.PhysicalAddressIsPageThenOffset : Prop :=
  ∀ (p : Params) (page page' : Nat) (off off' : Offset), page < 2 ^ p.pageBits → page' < 2 ^ p.pageBits →
    (p.paged = true → physAddr p page off = page * 65536 + off.toNat ∧ physAddr p page off < 2 ^ (p.pageBits + 16) ∧
      (physAddr p page off = physAddr p page' off' ↔ page = page' ∧ off = off')) ∧
    (p.paged = false → physAddr p page off = off.toNat ∧ physAddr p page off < 65536)

/-- 20_memory.md R37 to R41 (decisions D4, D5): the addresses of [HL], [BR:ll], [hhll], [IX] and [IY] as numbers, each
with its own page register. -/
def Obligations.EffectiveAddressesWithoutSum : Prop :=
  ∀ (s : State) (ll hh : Byte), s.pagesFit →
    let page : Nat → Nat := fun r => if s.params.paged then r * 65536 else 0
    eaHL s = page s.ep + s.h.toNat * 256 + s.l.toNat ∧
    eaBR s ll = page s.ep + s.br.toNat * 256 + ll.toNat ∧
    eaAbs s ll hh = page s.ep + hh.toNat * 256 + ll.toNat ∧
    eaIX s = page s.xp + s.ix.toNat ∧
    eaIY s = page s.yp + s.iy.toNat

/-- 20_memory.md R42, R43 (decisions D5, D6): dd and L are signed, the sum is taken modulo 2^16, the page is apart from
it. -/
def Obligations.EffectiveAddressesOfSignedSums : Prop :=
  ∀ (s : State) (dd : Byte), s.pagesFit →
    let page : Nat → Int := fun r => if s.params.paged then r * 65536 else 0
    (eaIXd s dd : Int) = page s.xp + (s.ix.toNat + dd.toInt) % 65536 ∧
    (eaIYd s dd : Int) = page s.yp + (s.iy.toNat + dd.toInt) % 65536 ∧
    (eaIXL s : Int) = page s.xp + (s.ix.toNat + s.l.toInt) % 65536 ∧
    (eaIYL s : Int) = page s.yp + (s.iy.toNat + s.l.toInt) % 65536

/-- 20_memory.md R36 ("P is not read"), 10_state.md R20 (decision D26): with `PAGED = false` a step does not depend on the
page registers: other values in them give the same outcome, but for those values. -/
def Obligations.UnpagedStepIgnoresPageRegisters : Prop :=
  ∀ (s : State) (ep xp yp : Nat), s.params.paged = false →
    match step s with
    | .next t => step { s with ep := ep, xp := xp, yp := yp } = .next { t with ep := ep, xp := xp, yp := yp }
    | .fault e => step { s with ep := ep, xp := xp, yp := yp } = .fault e
    | .refused r => step { s with ep := ep, xp := xp, yp := yp } = .refused r

/-! ### Order, hazards, the same byte twice -/

/-- 20_memory.md R50 (decision D11, log 10): where an instruction completes, the open order of its reads shows in
nothing: another choice gives the same next state but for the model's own count of choices. -/
def Obligations.ReadOrderDoesNotShow : Prop :=
  ∀ (i : Instr) (s t : State) (n : Nat), exec i s = .next t →
    ∃ t', exec i { s with choices := n } = .next t' ∧ { t' with choices := t.choices } = t

/-- 42_and_mem.md R97, R98, 20_memory.md R50: `AND [HL], [IX]` and `AND [HL], [IY]` with both operands at one byte leave
every byte of memory as it was and set N and Z from that byte. -/
def Obligations.SameByteAsSourceAndDestination : Prop :=
  ∀ s : State, Writable s (eaHL s) →
    (eaIX s = eaHL s →
      ∃ t, exec .andMHLMIX s = .next t ∧ KeepsMemory s t ∧ NZFrom (s.mem.byte (eaHL s)) s t) ∧
    (eaIY s = eaHL s →
      ∃ t, exec .andMHLMIY s = .next t ∧ KeepsMemory s t ∧ NZFrom (s.mem.byte (eaHL s)) s t)

/-- 70_reset_and_hazards.md R117 (decision D24): `AND L, #nn` and then `AND A, [HL]` uses the new L; `AND [HL], A` and
then `AND A, [HL]` reads the byte just written. -/
def Obligations.NextInstructionSeesTheEffects : Prop :=
  (∀ (s t : State) (nn : Byte), exec (.andLImm nn) s = .next t →
    Readable s (physAddr s.params s.ep (s.h ++ (s.l &&& nn))) →
    ∃ u, exec .andAMHL t = .next u ∧ u.a = s.a &&& s.mem.byte (physAddr s.params s.ep (s.h ++ (s.l &&& nn)))) ∧
  ∀ s t : State, exec .andMHLA s = .next t →
    ∃ u, exec .andAMHL t = .next u ∧ u.a = s.a &&& (s.mem.byte (eaHL s) &&& s.a)

/-! ### Timing tables -/

/-- 70_reset_and_hazards.md R122: the printed cycles are the bytes plus the data accesses, at least 2, but for the four
entries it names (`AND A, [BR:ll]` one less, `AND A, [ir+dd]` two less, `AND A, [ir+L]` and `AND SC, #nn` one more). -/
def Obligations.CycleFiguresFollowThePattern : Prop :=
  ∀ i : Instr,
    let pattern := max 2 (i.length + dataReads i + dataWrites i)
    match i with
    | .andAMBR _ => cycles i + 1 = pattern
    | .andAMIXd _ | .andAMIYd _ => cycles i + 2 = pattern
    | .andAMIXL | .andAMIYL | .andSCImm _ => cycles i = pattern + 1
    | .andAA | .andAB | .andAImm _ | .andAMHL | .andAMAbs _ _ | .andAMIX | .andAMIY | .andMBRImm _ _ | .andMHLA
    | .andMHLImm _ | .andMHLMIX | .andMHLMIY | .andBImm _ | .andLImm _ | .andHImm _ => cycles i = pattern

/-! ### The invariant and the end of a run -/

/-- The model's own reset state (log 2 to log 7: the spec gives no reset value) meets the invariant. -/
def Obligations.ResetMeetsTheInvariant : Prop := State.reset.wf

/-- Every step keeps the invariant: page registers and pc within their widths (10_state.md R20, R27), data memory
canonical and inside the physical space (20_memory.md R35, log 7), the text canonical and inside the program space
(10_state.md R28). -/
def Obligations.StepKeepsTheInvariant : Prop := ∀ s t : State, s.wf → step s = .next t → t.wf

/-- 70_reset_and_hazards.md R120 (decision D23; log 20): at the end of a run, pc at the address after the text, the model
has no further step: there is no byte to fetch. A text that fills the whole program space (`size = 2^PC_BITS`) has no
such end, and the spec is silent on it (log 24): it is not this statement's. -/
def Obligations.FinalStateHasNoStep : Prop :=
  ∀ (s : State) (base size : Nat), size < 2 ^ s.params.pcBits → Final s base size → step s = .fault (.noFetch s.pc)

/-- 70_reset_and_hazards.md R120 (decision D23): on a platform of plain memory, a text that is a sequence of the 21
encodings, whichever they are, runs each of them once, in address order, and reaches its end in as many steps as it has
instructions. The end is `Final`, with `base + size` modulo `2^PC_BITS`; for a text that fills the whole program space
that reading is the model's choice (log 24). -/
def Obligations.StraightLineTextRunsToItsEnd : Prop :=
  ∀ (is : List Instr) (s : State), PlainPlatform s.params → s.pc < 2 ^ s.params.pcBits →
    Occupies s s.pc (is.flatMap encode).length →
    (∀ k, k < (is.flatMap encode).length → fetch s (s.pc + k) = (is.flatMap encode)[k]?) →
    ∃ t, Host.Core.run Sys2Proof.core is.length s = .next t ∧ Final t s.pc (is.flatMap encode).length
end

