-- ==== Sys2Proof/Laws/Memory.lean ====
section
/-! SUPPORT. Read-after-write for cell lists and data memory, and that every memory operation keeps the canonical form. -/

namespace Sys2Proof.Machine

theorem cellAt_putCell (cells : List Host.Cell) (addr other : Nat) (v : Byte) :
    cellAt (putCell cells addr v) other = if addr = other then some v else cellAt cells other := by
  induction cells with
  | nil => simp [putCell, cellAt]
  | cons c rest ih =>
    obtain ⟨k, w⟩ := c
    simp only [putCell]
    split_ifs with hlt hk <;> simp only [cellAt, ih] <;> split_ifs <;> first | rfl | omega

theorem cellAt_dropCell (cells : List Host.Cell) (addr other : Nat) :
    cellAt (dropCell cells addr) other = if addr = other then none else cellAt cells other := by
  induction cells with
  | nil => simp [dropCell, cellAt]
  | cons c rest ih =>
    obtain ⟨k, w⟩ := c
    simp only [dropCell]
    split_ifs with hk h <;> simp only [cellAt, ih] <;> split_ifs <;> first | rfl | omega

/-- A read after a write: the written byte at its address, the old byte everywhere else (20_memory.md R44, R45). -/
theorem byte_store (m : Memory) (addr other : Nat) (v : Byte) :
    Memory.byte (Memory.store m addr v) other = if addr = other then v else Memory.byte m other := by
  unfold Memory.byte Memory.store
  by_cases hv : v = Config.launchByte
  · rw [if_pos hv, cellAt_dropCell]
    split_ifs <;> simp [hv]
  · rw [if_neg hv, cellAt_putCell]
    split_ifs <;> simp

@[simp] theorem byte_store_same (m : Memory) (addr : Nat) (v : Byte) :
    Memory.byte (Memory.store m addr v) addr = v := by rw [byte_store, if_pos rfl]

theorem byte_store_other (m : Memory) (addr other : Nat) (v : Byte) (h : other ≠ addr) :
    Memory.byte (Memory.store m addr v) other = Memory.byte m other := by rw [byte_store, if_neg (Ne.symm h)]

theorem mem_putCell {cells : List Host.Cell} {addr : Nat} {v : Byte} {c : Host.Cell}
    (h : c ∈ putCell cells addr v) : c = (addr, v) ∨ c ∈ cells := by
  induction cells with
  | nil => exact .inl (by simpa [putCell] using h)
  | cons d rest ih =>
    obtain ⟨k, w⟩ := d
    simp only [putCell] at h
    split_ifs at h <;> simp only [List.mem_cons] at h ⊢
    · tauto
    · tauto
    · rcases h with h | h
      · tauto
      · rcases ih h with h | h <;> tauto

theorem mem_dropCell {cells : List Host.Cell} {addr : Nat} {c : Host.Cell}
    (h : c ∈ dropCell cells addr) : c ∈ cells := by
  induction cells with
  | nil => exact h
  | cons d rest ih =>
    obtain ⟨k, w⟩ := d
    simp only [dropCell] at h
    split_ifs at h
    · exact List.mem_cons_of_mem _ (ih h)
    · rcases List.mem_cons.1 h with h | h
      · exact h ▸ List.mem_cons_self
      · exact List.mem_cons_of_mem _ (ih h)

theorem rising_putCell {cells : List Host.Cell} (h : Rising cells) (addr : Nat) (v : Byte) :
    Rising (putCell cells addr v) := by
  induction cells with
  | nil => simp [putCell, Rising]
  | cons d rest ih =>
    obtain ⟨k, w⟩ := d
    obtain ⟨hk, hrest⟩ := List.pairwise_cons.1 h
    simp only [putCell]
    split_ifs with hlt heq
    · refine List.pairwise_cons.2 ⟨fun c hc => ?_, h⟩
      rcases List.mem_cons.1 hc with hc | hc
      · simpa [hc] using hlt
      · exact lt_trans hlt (hk c hc)
    · exact List.pairwise_cons.2 ⟨fun c hc => heq ▸ hk c hc, hrest⟩
    · refine List.pairwise_cons.2 ⟨fun c hc => ?_, ih hrest⟩
      rcases mem_putCell hc with hc | hc
      · simp only [hc]; omega
      · exact hk c hc

theorem rising_dropCell {cells : List Host.Cell} (h : Rising cells) (addr : Nat) : Rising (dropCell cells addr) := by
  induction cells with
  | nil => exact h
  | cons d rest ih =>
    obtain ⟨k, w⟩ := d
    obtain ⟨hk, hrest⟩ := List.pairwise_cons.1 h
    simp only [dropCell]
    split_ifs
    · exact ih hrest
    · exact List.pairwise_cons.2 ⟨fun c hc => hk c (mem_dropCell hc), ih hrest⟩

/-- A store keeps the canonical form. -/
theorem wf_store {m : Memory} (h : Memory.wf m) (addr : Nat) (v : Byte) : Memory.wf (Memory.store m addr v) := by
  unfold Memory.store
  split_ifs with hv
  · exact ⟨rising_dropCell h.1 addr, fun c hc => h.2 c (mem_dropCell hc)⟩
  · refine ⟨rising_putCell h.1 addr v, fun c hc => ?_⟩
    rcases mem_putCell hc with hc | hc
    · simpa [hc] using hv
    · exact h.2 c hc

/-- A store lists no address but its own and those listed before. -/
theorem mem_store {m : Memory} {addr : Nat} {v : Byte} {c : Host.Cell} (h : c ∈ Memory.store m addr v) :
    c.1 = addr ∨ c ∈ m := by
  unfold Memory.store at h
  split_ifs at h
  · exact .inr (mem_dropCell h)
  · exact (mem_putCell h).imp (fun h => by rw [h]) id

end Sys2Proof.Machine
end

