-- ==== Sys2Proof/Laws/State.lean ====
section
/-! SUPPORT. One lemma per field per update of the state, and what the updates built of them do to a field. -/

namespace Sys2Proof.Machine

variable (s : State)

@[simp] theorem State.withA_a (v : Byte) : (s.withA v).a = v := rfl
@[simp] theorem State.withA_b (v : Byte) : (s.withA v).b = s.b := rfl
@[simp] theorem State.withA_h (v : Byte) : (s.withA v).h = s.h := rfl
@[simp] theorem State.withA_l (v : Byte) : (s.withA v).l = s.l := rfl
@[simp] theorem State.withA_br (v : Byte) : (s.withA v).br = s.br := rfl
@[simp] theorem State.withA_ix (v : Byte) : (s.withA v).ix = s.ix := rfl
@[simp] theorem State.withA_iy (v : Byte) : (s.withA v).iy = s.iy := rfl
@[simp] theorem State.withA_ep (v : Byte) : (s.withA v).ep = s.ep := rfl
@[simp] theorem State.withA_xp (v : Byte) : (s.withA v).xp = s.xp := rfl
@[simp] theorem State.withA_yp (v : Byte) : (s.withA v).yp = s.yp := rfl
@[simp] theorem State.withA_sc (v : Byte) : (s.withA v).sc = s.sc := rfl
@[simp] theorem State.withA_pc (v : Byte) : (s.withA v).pc = s.pc := rfl
@[simp] theorem State.withA_mem (v : Byte) : (s.withA v).mem = s.mem := rfl
@[simp] theorem State.withA_text (v : Byte) : (s.withA v).text = s.text := rfl
@[simp] theorem State.withA_params (v : Byte) : (s.withA v).params = s.params := rfl
@[simp] theorem State.withA_choices (v : Byte) : (s.withA v).choices = s.choices := rfl

@[simp] theorem State.withB_a (v : Byte) : (s.withB v).a = s.a := rfl
@[simp] theorem State.withB_b (v : Byte) : (s.withB v).b = v := rfl
@[simp] theorem State.withB_h (v : Byte) : (s.withB v).h = s.h := rfl
@[simp] theorem State.withB_l (v : Byte) : (s.withB v).l = s.l := rfl
@[simp] theorem State.withB_br (v : Byte) : (s.withB v).br = s.br := rfl
@[simp] theorem State.withB_ix (v : Byte) : (s.withB v).ix = s.ix := rfl
@[simp] theorem State.withB_iy (v : Byte) : (s.withB v).iy = s.iy := rfl
@[simp] theorem State.withB_ep (v : Byte) : (s.withB v).ep = s.ep := rfl
@[simp] theorem State.withB_xp (v : Byte) : (s.withB v).xp = s.xp := rfl
@[simp] theorem State.withB_yp (v : Byte) : (s.withB v).yp = s.yp := rfl
@[simp] theorem State.withB_sc (v : Byte) : (s.withB v).sc = s.sc := rfl
@[simp] theorem State.withB_pc (v : Byte) : (s.withB v).pc = s.pc := rfl
@[simp] theorem State.withB_mem (v : Byte) : (s.withB v).mem = s.mem := rfl
@[simp] theorem State.withB_text (v : Byte) : (s.withB v).text = s.text := rfl
@[simp] theorem State.withB_params (v : Byte) : (s.withB v).params = s.params := rfl
@[simp] theorem State.withB_choices (v : Byte) : (s.withB v).choices = s.choices := rfl

@[simp] theorem State.withH_a (v : Byte) : (s.withH v).a = s.a := rfl
@[simp] theorem State.withH_b (v : Byte) : (s.withH v).b = s.b := rfl
@[simp] theorem State.withH_h (v : Byte) : (s.withH v).h = v := rfl
@[simp] theorem State.withH_l (v : Byte) : (s.withH v).l = s.l := rfl
@[simp] theorem State.withH_br (v : Byte) : (s.withH v).br = s.br := rfl
@[simp] theorem State.withH_ix (v : Byte) : (s.withH v).ix = s.ix := rfl
@[simp] theorem State.withH_iy (v : Byte) : (s.withH v).iy = s.iy := rfl
@[simp] theorem State.withH_ep (v : Byte) : (s.withH v).ep = s.ep := rfl
@[simp] theorem State.withH_xp (v : Byte) : (s.withH v).xp = s.xp := rfl
@[simp] theorem State.withH_yp (v : Byte) : (s.withH v).yp = s.yp := rfl
@[simp] theorem State.withH_sc (v : Byte) : (s.withH v).sc = s.sc := rfl
@[simp] theorem State.withH_pc (v : Byte) : (s.withH v).pc = s.pc := rfl
@[simp] theorem State.withH_mem (v : Byte) : (s.withH v).mem = s.mem := rfl
@[simp] theorem State.withH_text (v : Byte) : (s.withH v).text = s.text := rfl
@[simp] theorem State.withH_params (v : Byte) : (s.withH v).params = s.params := rfl
@[simp] theorem State.withH_choices (v : Byte) : (s.withH v).choices = s.choices := rfl

@[simp] theorem State.withL_a (v : Byte) : (s.withL v).a = s.a := rfl
@[simp] theorem State.withL_b (v : Byte) : (s.withL v).b = s.b := rfl
@[simp] theorem State.withL_h (v : Byte) : (s.withL v).h = s.h := rfl
@[simp] theorem State.withL_l (v : Byte) : (s.withL v).l = v := rfl
@[simp] theorem State.withL_br (v : Byte) : (s.withL v).br = s.br := rfl
@[simp] theorem State.withL_ix (v : Byte) : (s.withL v).ix = s.ix := rfl
@[simp] theorem State.withL_iy (v : Byte) : (s.withL v).iy = s.iy := rfl
@[simp] theorem State.withL_ep (v : Byte) : (s.withL v).ep = s.ep := rfl
@[simp] theorem State.withL_xp (v : Byte) : (s.withL v).xp = s.xp := rfl
@[simp] theorem State.withL_yp (v : Byte) : (s.withL v).yp = s.yp := rfl
@[simp] theorem State.withL_sc (v : Byte) : (s.withL v).sc = s.sc := rfl
@[simp] theorem State.withL_pc (v : Byte) : (s.withL v).pc = s.pc := rfl
@[simp] theorem State.withL_mem (v : Byte) : (s.withL v).mem = s.mem := rfl
@[simp] theorem State.withL_text (v : Byte) : (s.withL v).text = s.text := rfl
@[simp] theorem State.withL_params (v : Byte) : (s.withL v).params = s.params := rfl
@[simp] theorem State.withL_choices (v : Byte) : (s.withL v).choices = s.choices := rfl

@[simp] theorem State.withSC_a (v : Byte) : (s.withSC v).a = s.a := rfl
@[simp] theorem State.withSC_b (v : Byte) : (s.withSC v).b = s.b := rfl
@[simp] theorem State.withSC_h (v : Byte) : (s.withSC v).h = s.h := rfl
@[simp] theorem State.withSC_l (v : Byte) : (s.withSC v).l = s.l := rfl
@[simp] theorem State.withSC_br (v : Byte) : (s.withSC v).br = s.br := rfl
@[simp] theorem State.withSC_ix (v : Byte) : (s.withSC v).ix = s.ix := rfl
@[simp] theorem State.withSC_iy (v : Byte) : (s.withSC v).iy = s.iy := rfl
@[simp] theorem State.withSC_ep (v : Byte) : (s.withSC v).ep = s.ep := rfl
@[simp] theorem State.withSC_xp (v : Byte) : (s.withSC v).xp = s.xp := rfl
@[simp] theorem State.withSC_yp (v : Byte) : (s.withSC v).yp = s.yp := rfl
@[simp] theorem State.withSC_sc (v : Byte) : (s.withSC v).sc = v := rfl
@[simp] theorem State.withSC_pc (v : Byte) : (s.withSC v).pc = s.pc := rfl
@[simp] theorem State.withSC_mem (v : Byte) : (s.withSC v).mem = s.mem := rfl
@[simp] theorem State.withSC_text (v : Byte) : (s.withSC v).text = s.text := rfl
@[simp] theorem State.withSC_params (v : Byte) : (s.withSC v).params = s.params := rfl
@[simp] theorem State.withSC_choices (v : Byte) : (s.withSC v).choices = s.choices := rfl

@[simp] theorem State.withPC_a (n : Nat) : (s.withPC n).a = s.a := rfl
@[simp] theorem State.withPC_b (n : Nat) : (s.withPC n).b = s.b := rfl
@[simp] theorem State.withPC_h (n : Nat) : (s.withPC n).h = s.h := rfl
@[simp] theorem State.withPC_l (n : Nat) : (s.withPC n).l = s.l := rfl
@[simp] theorem State.withPC_br (n : Nat) : (s.withPC n).br = s.br := rfl
@[simp] theorem State.withPC_ix (n : Nat) : (s.withPC n).ix = s.ix := rfl
@[simp] theorem State.withPC_iy (n : Nat) : (s.withPC n).iy = s.iy := rfl
@[simp] theorem State.withPC_ep (n : Nat) : (s.withPC n).ep = s.ep := rfl
@[simp] theorem State.withPC_xp (n : Nat) : (s.withPC n).xp = s.xp := rfl
@[simp] theorem State.withPC_yp (n : Nat) : (s.withPC n).yp = s.yp := rfl
@[simp] theorem State.withPC_sc (n : Nat) : (s.withPC n).sc = s.sc := rfl
@[simp] theorem State.withPC_pc (n : Nat) : (s.withPC n).pc = n := rfl
@[simp] theorem State.withPC_mem (n : Nat) : (s.withPC n).mem = s.mem := rfl
@[simp] theorem State.withPC_text (n : Nat) : (s.withPC n).text = s.text := rfl
@[simp] theorem State.withPC_params (n : Nat) : (s.withPC n).params = s.params := rfl
@[simp] theorem State.withPC_choices (n : Nat) : (s.withPC n).choices = s.choices := rfl

@[simp] theorem State.withMem_a (m : Memory) : (s.withMem m).a = s.a := rfl
@[simp] theorem State.withMem_b (m : Memory) : (s.withMem m).b = s.b := rfl
@[simp] theorem State.withMem_h (m : Memory) : (s.withMem m).h = s.h := rfl
@[simp] theorem State.withMem_l (m : Memory) : (s.withMem m).l = s.l := rfl
@[simp] theorem State.withMem_br (m : Memory) : (s.withMem m).br = s.br := rfl
@[simp] theorem State.withMem_ix (m : Memory) : (s.withMem m).ix = s.ix := rfl
@[simp] theorem State.withMem_iy (m : Memory) : (s.withMem m).iy = s.iy := rfl
@[simp] theorem State.withMem_ep (m : Memory) : (s.withMem m).ep = s.ep := rfl
@[simp] theorem State.withMem_xp (m : Memory) : (s.withMem m).xp = s.xp := rfl
@[simp] theorem State.withMem_yp (m : Memory) : (s.withMem m).yp = s.yp := rfl
@[simp] theorem State.withMem_sc (m : Memory) : (s.withMem m).sc = s.sc := rfl
@[simp] theorem State.withMem_pc (m : Memory) : (s.withMem m).pc = s.pc := rfl
@[simp] theorem State.withMem_mem (m : Memory) : (s.withMem m).mem = m := rfl
@[simp] theorem State.withMem_text (m : Memory) : (s.withMem m).text = s.text := rfl
@[simp] theorem State.withMem_params (m : Memory) : (s.withMem m).params = s.params := rfl
@[simp] theorem State.withMem_choices (m : Memory) : (s.withMem m).choices = s.choices := rfl

@[simp] theorem State.withText_a (x : Text) : (s.withText x).a = s.a := rfl
@[simp] theorem State.withText_b (x : Text) : (s.withText x).b = s.b := rfl
@[simp] theorem State.withText_h (x : Text) : (s.withText x).h = s.h := rfl
@[simp] theorem State.withText_l (x : Text) : (s.withText x).l = s.l := rfl
@[simp] theorem State.withText_br (x : Text) : (s.withText x).br = s.br := rfl
@[simp] theorem State.withText_ix (x : Text) : (s.withText x).ix = s.ix := rfl
@[simp] theorem State.withText_iy (x : Text) : (s.withText x).iy = s.iy := rfl
@[simp] theorem State.withText_ep (x : Text) : (s.withText x).ep = s.ep := rfl
@[simp] theorem State.withText_xp (x : Text) : (s.withText x).xp = s.xp := rfl
@[simp] theorem State.withText_yp (x : Text) : (s.withText x).yp = s.yp := rfl
@[simp] theorem State.withText_sc (x : Text) : (s.withText x).sc = s.sc := rfl
@[simp] theorem State.withText_pc (x : Text) : (s.withText x).pc = s.pc := rfl
@[simp] theorem State.withText_mem (x : Text) : (s.withText x).mem = s.mem := rfl
@[simp] theorem State.withText_text (x : Text) : (s.withText x).text = x := rfl
@[simp] theorem State.withText_params (x : Text) : (s.withText x).params = s.params := rfl
@[simp] theorem State.withText_choices (x : Text) : (s.withText x).choices = s.choices := rfl

@[simp] theorem State.useChoice_a : s.useChoice.a = s.a := rfl
@[simp] theorem State.useChoice_b : s.useChoice.b = s.b := rfl
@[simp] theorem State.useChoice_h : s.useChoice.h = s.h := rfl
@[simp] theorem State.useChoice_l : s.useChoice.l = s.l := rfl
@[simp] theorem State.useChoice_br : s.useChoice.br = s.br := rfl
@[simp] theorem State.useChoice_ix : s.useChoice.ix = s.ix := rfl
@[simp] theorem State.useChoice_iy : s.useChoice.iy = s.iy := rfl
@[simp] theorem State.useChoice_ep : s.useChoice.ep = s.ep := rfl
@[simp] theorem State.useChoice_xp : s.useChoice.xp = s.xp := rfl
@[simp] theorem State.useChoice_yp : s.useChoice.yp = s.yp := rfl
@[simp] theorem State.useChoice_sc : s.useChoice.sc = s.sc := rfl
@[simp] theorem State.useChoice_pc : s.useChoice.pc = s.pc := rfl
@[simp] theorem State.useChoice_mem : s.useChoice.mem = s.mem := rfl
@[simp] theorem State.useChoice_text : s.useChoice.text = s.text := rfl
@[simp] theorem State.useChoice_params : s.useChoice.params = s.params := rfl
@[simp] theorem State.useChoice_choices : s.useChoice.choices = s.choices + 1 := rfl

@[simp] theorem State.advance_a (n : Nat) : (s.advance n).a = s.a := rfl
@[simp] theorem State.advance_b (n : Nat) : (s.advance n).b = s.b := rfl
@[simp] theorem State.advance_h (n : Nat) : (s.advance n).h = s.h := rfl
@[simp] theorem State.advance_l (n : Nat) : (s.advance n).l = s.l := rfl
@[simp] theorem State.advance_br (n : Nat) : (s.advance n).br = s.br := rfl
@[simp] theorem State.advance_ix (n : Nat) : (s.advance n).ix = s.ix := rfl
@[simp] theorem State.advance_iy (n : Nat) : (s.advance n).iy = s.iy := rfl
@[simp] theorem State.advance_ep (n : Nat) : (s.advance n).ep = s.ep := rfl
@[simp] theorem State.advance_xp (n : Nat) : (s.advance n).xp = s.xp := rfl
@[simp] theorem State.advance_yp (n : Nat) : (s.advance n).yp = s.yp := rfl
@[simp] theorem State.advance_sc (n : Nat) : (s.advance n).sc = s.sc := rfl
@[simp] theorem State.advance_pc (n : Nat) : (s.advance n).pc = (s.pc + n) % 2 ^ s.params.pcBits := rfl
@[simp] theorem State.advance_mem (n : Nat) : (s.advance n).mem = s.mem := rfl
@[simp] theorem State.advance_text (n : Nat) : (s.advance n).text = s.text := rfl
@[simp] theorem State.advance_params (n : Nat) : (s.advance n).params = s.params := rfl
@[simp] theorem State.advance_choices (n : Nat) : (s.advance n).choices = s.choices := rfl

@[simp] theorem State.setNZ_a (v : Byte) : (s.setNZ v).a = s.a := rfl
@[simp] theorem State.setNZ_b (v : Byte) : (s.setNZ v).b = s.b := rfl
@[simp] theorem State.setNZ_h (v : Byte) : (s.setNZ v).h = s.h := rfl
@[simp] theorem State.setNZ_l (v : Byte) : (s.setNZ v).l = s.l := rfl
@[simp] theorem State.setNZ_br (v : Byte) : (s.setNZ v).br = s.br := rfl
@[simp] theorem State.setNZ_ix (v : Byte) : (s.setNZ v).ix = s.ix := rfl
@[simp] theorem State.setNZ_iy (v : Byte) : (s.setNZ v).iy = s.iy := rfl
@[simp] theorem State.setNZ_ep (v : Byte) : (s.setNZ v).ep = s.ep := rfl
@[simp] theorem State.setNZ_xp (v : Byte) : (s.setNZ v).xp = s.xp := rfl
@[simp] theorem State.setNZ_yp (v : Byte) : (s.setNZ v).yp = s.yp := rfl
@[simp] theorem State.setNZ_sc (v : Byte) : (s.setNZ v).sc = nzOf v s.sc := rfl
@[simp] theorem State.setNZ_pc (v : Byte) : (s.setNZ v).pc = s.pc := rfl
@[simp] theorem State.setNZ_mem (v : Byte) : (s.setNZ v).mem = s.mem := rfl
@[simp] theorem State.setNZ_text (v : Byte) : (s.setNZ v).text = s.text := rfl
@[simp] theorem State.setNZ_params (v : Byte) : (s.setNZ v).params = s.params := rfl
@[simp] theorem State.setNZ_choices (v : Byte) : (s.setNZ v).choices = s.choices := rfl

@[simp] theorem State.loadAtPC_a (bytes : List Byte) : (s.loadAtPC bytes).a = s.a := rfl
@[simp] theorem State.loadAtPC_b (bytes : List Byte) : (s.loadAtPC bytes).b = s.b := rfl
@[simp] theorem State.loadAtPC_h (bytes : List Byte) : (s.loadAtPC bytes).h = s.h := rfl
@[simp] theorem State.loadAtPC_l (bytes : List Byte) : (s.loadAtPC bytes).l = s.l := rfl
@[simp] theorem State.loadAtPC_br (bytes : List Byte) : (s.loadAtPC bytes).br = s.br := rfl
@[simp] theorem State.loadAtPC_ix (bytes : List Byte) : (s.loadAtPC bytes).ix = s.ix := rfl
@[simp] theorem State.loadAtPC_iy (bytes : List Byte) : (s.loadAtPC bytes).iy = s.iy := rfl
@[simp] theorem State.loadAtPC_ep (bytes : List Byte) : (s.loadAtPC bytes).ep = s.ep := rfl
@[simp] theorem State.loadAtPC_xp (bytes : List Byte) : (s.loadAtPC bytes).xp = s.xp := rfl
@[simp] theorem State.loadAtPC_yp (bytes : List Byte) : (s.loadAtPC bytes).yp = s.yp := rfl
@[simp] theorem State.loadAtPC_sc (bytes : List Byte) : (s.loadAtPC bytes).sc = s.sc := rfl
@[simp] theorem State.loadAtPC_pc (bytes : List Byte) : (s.loadAtPC bytes).pc = s.pc := rfl
@[simp] theorem State.loadAtPC_mem (bytes : List Byte) : (s.loadAtPC bytes).mem = s.mem := rfl
@[simp] theorem State.loadAtPC_text (bytes : List Byte) : (s.loadAtPC bytes).text = putBytes s.params.pcBits s.text s.pc bytes := rfl
@[simp] theorem State.loadAtPC_params (bytes : List Byte) : (s.loadAtPC bytes).params = s.params := rfl
@[simp] theorem State.loadAtPC_choices (bytes : List Byte) : (s.loadAtPC bytes).choices = s.choices := rfl

end Sys2Proof.Machine
end

