-- ==== Sys2Proof/Laws/Ops.lean ====
section
/-! SUPPORT. What each shared operation can do, said once. -/

namespace Sys2Proof.Machine

section AndThen
variable {α β : Type}

@[simp] theorem andThen_next (x : α) (f : α → Host.Outcome β Fault Refusal) : andThen (.next x) f = f x := rfl
@[simp] theorem andThen_fault (e : Fault) (f : α → Host.Outcome β Fault Refusal) :
    andThen (.fault e) f = .fault e := rfl
@[simp] theorem andThen_refused (r : Refusal) (f : α → Host.Outcome β Fault Refusal) :
    andThen (.refused r) f = .refused r := rfl

/-- A sequence answers a value only through a value of its first part. -/
theorem andThen_eq_next {o : Host.Outcome α Fault Refusal} {f : α → Host.Outcome β Fault Refusal} {y : β} :
    andThen o f = .next y ↔ ∃ x, o = .next x ∧ f x = .next y := by
  cases o <;> simp

end AndThen

@[simp] theorem and8_eq (x y : Byte) : and8 x y = x &&& y := rfl

/-- `hi ∥ lo` as a number. -/
theorem join_toNat (hi lo : Byte) : (join hi lo).toNat = hi.toNat * 256 + lo.toNat := by
  have := lo.isLt
  simp only [join, BitVec.toNat_append]
  rw [Nat.shiftLeft_eq, Nat.mul_comm, ← Nat.two_pow_add_eq_or_of_lt (by omega : lo.toNat < 2 ^ 8)]

/-- A physical address lies in the physical space, whatever the page register holds (20_memory.md R35, R36). -/
theorem physAddr_lt (p : Params) (page : Nat) (off : Offset) : physAddr p page off < 2 ^ physBits p := by
  unfold physAddr physBits
  have hoff := off.isLt
  split_ifs
  · have hpage : page % 2 ^ p.pageBits < 2 ^ p.pageBits := Nat.mod_lt _ (Nat.two_pow_pos _)
    have hpow : 2 ^ (p.pageBits + 16) = 2 ^ p.pageBits * 65536 := Nat.pow_add 2 p.pageBits 16
    have := Nat.mul_le_mul_right 65536 hpage
    omega
  · exact hoff

/-- When the access is admitted. -/
theorem checkAccess_eq_next {p : Params} {addr : Nat} {x : Unit} :
    checkAccess p addr = .next x ↔ mapped p addr = true ∧ sideEffect p addr = false := by
  unfold checkAccess
  split_ifs with hm hs <;> simp_all

/-- A read answers the byte exactly where the access is admitted (20_memory.md R44, R52). -/
theorem memRead_eq_next {s : State} {addr : Nat} {v : Byte} :
    memRead s addr = .next v ↔
      (mapped s.params addr = true ∧ sideEffect s.params addr = false) ∧ v = s.mem.byte addr := by
  unfold memRead
  rw [andThen_eq_next]
  constructor
  · rintro ⟨_, ha, hv⟩
    exact ⟨checkAccess_eq_next.1 ha, by injection hv with hv; exact hv.symm⟩
  · rintro ⟨ha, rfl⟩
    exact ⟨(), checkAccess_eq_next.2 ha, rfl⟩

/-- An admitted read, as a value to rewrite with. -/
theorem memRead_of_admitted {s : State} {addr : Nat} (hm : mapped s.params addr = true)
    (hs : sideEffect s.params addr = false) : memRead s addr = .next (s.mem.byte addr) :=
  memRead_eq_next.2 ⟨⟨hm, hs⟩, rfl⟩

/-- A write answers a state exactly where it is admitted, and then memory is all that changes (20_memory.md R45, R52,
R58). -/
theorem memWrite_eq_next {s t : State} {addr : Nat} {v : Byte} :
    memWrite s addr v = .next t ↔
      (mapped s.params addr = true ∧ sideEffect s.params addr = false ∧ codeRegion s.params addr = false) ∧
        t = s.withMem (s.mem.store addr v) := by
  unfold memWrite
  rw [andThen_eq_next]
  constructor
  · rintro ⟨_, ha, hw⟩
    split_ifs at hw with hc
    injection hw with hw
    exact ⟨⟨(checkAccess_eq_next.1 ha).1, (checkAccess_eq_next.1 ha).2, by simpa using hc⟩, hw.symm⟩
  · rintro ⟨⟨hm, hs, hc⟩, rfl⟩
    exact ⟨(), checkAccess_eq_next.2 ⟨hm, hs⟩, by simp [hc]⟩

/-- An admitted write, as a value to rewrite with. -/
theorem memWrite_of_admitted {s : State} {addr : Nat} (v : Byte) (hm : mapped s.params addr = true)
    (hs : sideEffect s.params addr = false) (hc : codeRegion s.params addr = false) :
    memWrite s addr v = .next (s.withMem (s.mem.store addr v)) :=
  memWrite_eq_next.2 ⟨⟨hm, hs, hc⟩, rfl⟩

/-- The pair of reads is the two reads one after the other, in the order the free value says (20_memory.md R50). -/
theorem readPair_eq (s : State) (src dst : Nat) :
    readPair s src dst =
      if Config.freeReadOrder s.choices then
        andThen (memRead s src) fun v => andThen (memRead s dst) fun m => .next (v, m)
      else andThen (memRead s dst) fun m => andThen (memRead s src) fun v => .next (v, m) := by
  unfold readPair
  split_ifs with h <;> cases memRead s src <;> cases memRead s dst <;> simp_all

/-- Both bytes are answered exactly where both reads are admitted, in either order. -/
theorem readPair_eq_next {s : State} {src dst : Nat} {r : Byte × Byte} :
    readPair s src dst = .next r ↔ memRead s src = .next r.1 ∧ memRead s dst = .next r.2 := by
  obtain ⟨v, m⟩ := r
  rw [readPair_eq]
  split_ifs <;> cases memRead s src <;> cases memRead s dst <;> simp [and_comm]

end Sys2Proof.Machine
end

