-- ==== Sys2Proof/Laws/Flags.lean ====
section
/-! SUPPORT. What `setNZ` does to each flag (10_state.md R23 to R25), and how a flag reads through an update. -/

namespace Sys2Proof.Machine

theorem flagBit_lt (f : Flag) : flagBit f < 8 := by cases f <;> decide

theorem nzOf_n (v sc : Byte) : (nzOf v sc).getLsbD (flagBit .n) = v.getLsbD 7 := by
  unfold nzOf flagBit
  cases v.getLsbD 7 <;> by_cases hz : v = 0x00#8 <;> simp [hz]

theorem nzOf_z (v sc : Byte) : (nzOf v sc).getLsbD (flagBit .z) = decide (v = 0x00#8) := by
  unfold nzOf flagBit
  cases v.getLsbD 7 <;> by_cases hz : v = 0x00#8 <;> simp [hz]

theorem nzOf_other (v sc : Byte) {f : Flag} (hn : f ≠ .n) (hz : f ≠ .z) :
    (nzOf v sc).getLsbD (flagBit f) = sc.getLsbD (flagBit f) := by
  unfold nzOf
  cases f <;> first | contradiction | (cases v.getLsbD 7 <;> by_cases h0 : v = 0x00#8 <;> simp [h0, flagBit])

section Updates
variable (s : State)

@[simp] theorem flag_withA (v : Byte) (f : Flag) : (s.withA v).flag f = s.flag f := rfl
@[simp] theorem flag_withB (v : Byte) (f : Flag) : (s.withB v).flag f = s.flag f := rfl
@[simp] theorem flag_withH (v : Byte) (f : Flag) : (s.withH v).flag f = s.flag f := rfl
@[simp] theorem flag_withL (v : Byte) (f : Flag) : (s.withL v).flag f = s.flag f := rfl
@[simp] theorem flag_withMem (m : Memory) (f : Flag) : (s.withMem m).flag f = s.flag f := rfl
@[simp] theorem flag_useChoice (f : Flag) : s.useChoice.flag f = s.flag f := rfl
@[simp] theorem flag_advance (n : Nat) (f : Flag) : (s.advance n).flag f = s.flag f := rfl
@[simp] theorem flag_withSC (v : Byte) (f : Flag) : (s.withSC v).flag f = v.getLsbD (flagBit f) := rfl

@[simp] theorem flag_setNZ_n (v : Byte) : (s.setNZ v).flag .n = v.getLsbD 7 := nzOf_n v s.sc
@[simp] theorem flag_setNZ_z (v : Byte) : (s.setNZ v).flag .z = decide (v = 0x00#8) := nzOf_z v s.sc
theorem flag_setNZ_other (v : Byte) {f : Flag} (hn : f ≠ .n) (hz : f ≠ .z) : (s.setNZ v).flag f = s.flag f :=
  nzOf_other v s.sc hn hz

end Updates

end Sys2Proof.Machine
end

