-- ==== Sys2Proof/Laws/Exec.lean ====
section
/-! SUPPORT. What the meanings' shared operations can do, and one inversion of `exec`: every next state is one of six
explicit updates. -/

namespace Sys2Proof.Machine

/-- `AND A, [..]` answers exactly where its read is admitted. -/
theorem andMemIntoA_eq_next {s t : State} {ea len : Nat} :
    andMemIntoA s ea len = .next t ↔ Readable s ea ∧ t = andIntoA s (s.mem.byte ea) len := by
  unfold andMemIntoA Readable
  rw [andThen_eq_next]
  simp only [memRead_eq_next]
  constructor
  · rintro ⟨v, ⟨h, rfl⟩, ht⟩
    exact ⟨h, by injection ht with ht; exact ht.symm⟩
  · rintro ⟨h, rfl⟩
    exact ⟨_, ⟨h, rfl⟩, rfl⟩

/-- The state after a memory destination took its result. -/
def stored (s : State) (ea : Nat) (t : Byte) (writesNZ : Bool) (len : Nat) : State :=
  (if writesNZ then (s.withMem (s.mem.store ea t)).setNZ t else s.withMem (s.mem.store ea t)).advance len

theorem storeResult_eq_next {s t : State} {ea len : Nat} {v : Byte} {nz : Bool} :
    storeResult s ea v nz len = .next t ↔ Writable s ea ∧ t = stored s ea v nz len := by
  unfold storeResult Writable Readable stored
  rw [andThen_eq_next]
  simp only [memWrite_eq_next]
  constructor
  · rintro ⟨_, ⟨⟨hm, hs, hc⟩, rfl⟩, ht⟩
    exact ⟨⟨⟨hm, hs⟩, hc⟩, by injection ht with ht; exact ht.symm⟩
  · rintro ⟨⟨⟨hm, hs⟩, hc⟩, rfl⟩
    exact ⟨_, ⟨⟨hm, hs, hc⟩, rfl⟩, rfl⟩

/-- A memory destination with a register or immediate source answers exactly where its accesses are admitted. -/
theorem andIntoMem_eq_next {s t : State} {ea len : Nat} {src : Byte} {nz : Bool} :
    andIntoMem s ea src nz len = .next t ↔
      Writable s ea ∧ t = stored s ea (s.mem.byte ea &&& src) nz len := by
  unfold andIntoMem
  rw [andThen_eq_next]
  simp only [memRead_eq_next, storeResult_eq_next, and8_eq]
  constructor
  · rintro ⟨m, ⟨_, rfl⟩, hw, ht⟩
    exact ⟨hw, ht⟩
  · rintro ⟨hw, ht⟩
    exact ⟨_, ⟨hw.1, rfl⟩, hw, ht⟩

/-- A memory destination with a memory source answers exactly where its accesses are admitted. -/
theorem andMemIntoMem_eq_next {s t : State} {dst src len : Nat} :
    andMemIntoMem s dst src len = .next t ↔
      Readable s src ∧ Writable s dst ∧
        t = stored s.useChoice dst (s.mem.byte dst &&& s.mem.byte src) true len := by
  unfold andMemIntoMem
  rw [andThen_eq_next]
  simp only [readPair_eq_next, memRead_eq_next, storeResult_eq_next, and8_eq]
  constructor
  · rintro ⟨⟨v, m⟩, ⟨⟨hs, rfl⟩, _, rfl⟩, hw, ht⟩
    exact ⟨hs, hw, ht⟩
  · rintro ⟨hs, hw, ht⟩
    exact ⟨(_, _), ⟨⟨hs, rfl⟩, hw.1, rfl⟩, hw, ht⟩

/-- Everything `exec` can do when it answers a next state. -/
theorem exec_cases {i : Instr} {s t : State} (h : exec i s = .next t) :
    (i.operands.dst = .a ∧ storeAddr i s = none ∧ t = andIntoA s (operandValue i.operands.src s) i.length) ∨
    (∃ nn, i = .andBImm nn ∧ t = ((s.withB (s.b &&& nn)).setNZ (s.b &&& nn)).advance 3) ∨
    (∃ nn, i = .andLImm nn ∧ t = ((s.withL (s.l &&& nn)).setNZ (s.l &&& nn)).advance 3) ∨
    (∃ nn, i = .andHImm nn ∧ t = ((s.withH (s.h &&& nn)).setNZ (s.h &&& nn)).advance 3) ∨
    (∃ nn, i = .andSCImm nn ∧ t = (s.withSC (s.sc &&& nn)).advance 2) ∨
    (∃ ea s' nz, storeAddr i s = some ea ∧ Writable s ea ∧ (s' = s ∨ s' = s.useChoice) ∧
      (nz = true ∨ (∃ ll nn, i = .andMBRImm ll nn) ∧ nz = s.params.brllImmWritesNZ) ∧
      t = stored s' ea (s.mem.byte ea &&& operandValue i.operands.src s) nz i.length) := by
  cases i
  case andMBRImm ll nn =>
    obtain ⟨hw, ht⟩ := andIntoMem_eq_next.1 h
    exact .inr (.inr (.inr (.inr (.inr ⟨_, s, _, rfl, hw, .inl rfl, .inr ⟨⟨ll, nn, rfl⟩, rfl⟩, ht⟩))))
  case andMHLA =>
    obtain ⟨hw, ht⟩ := andIntoMem_eq_next.1 h
    exact .inr (.inr (.inr (.inr (.inr ⟨_, s, true, rfl, hw, .inl rfl, .inl rfl, ht⟩))))
  case andMHLImm nn =>
    obtain ⟨hw, ht⟩ := andIntoMem_eq_next.1 h
    exact .inr (.inr (.inr (.inr (.inr ⟨_, s, true, rfl, hw, .inl rfl, .inl rfl, ht⟩))))
  case andMHLMIX =>
    obtain ⟨-, hw, ht⟩ := andMemIntoMem_eq_next.1 h
    exact .inr (.inr (.inr (.inr (.inr ⟨_, s.useChoice, true, rfl, hw, .inr rfl, .inl rfl, ht⟩))))
  case andMHLMIY =>
    obtain ⟨-, hw, ht⟩ := andMemIntoMem_eq_next.1 h
    exact .inr (.inr (.inr (.inr (.inr ⟨_, s.useChoice, true, rfl, hw, .inr rfl, .inl rfl, ht⟩))))
  case andBImm nn => injection h with h; exact .inr (.inl ⟨nn, rfl, h.symm⟩)
  case andLImm nn => injection h with h; exact .inr (.inr (.inl ⟨nn, rfl, h.symm⟩))
  case andHImm nn => injection h with h; exact .inr (.inr (.inr (.inl ⟨nn, rfl, h.symm⟩)))
  case andSCImm nn => injection h with h; exact .inr (.inr (.inr (.inr (.inl ⟨nn, rfl, h.symm⟩))))
  case andAA => injection h with h; exact .inl ⟨rfl, rfl, h.symm⟩
  case andAB => injection h with h; exact .inl ⟨rfl, rfl, h.symm⟩
  case andAImm nn => injection h with h; exact .inl ⟨rfl, rfl, h.symm⟩
  all_goals exact .inl ⟨rfl, rfl, (andMemIntoA_eq_next.1 h).2⟩

section Fields
variable (s : State) (v : Byte) (len : Nat)

@[simp] theorem andIntoA_a : (andIntoA s v len).a = s.a &&& v := rfl
@[simp] theorem andIntoA_b : (andIntoA s v len).b = s.b := rfl
@[simp] theorem andIntoA_h : (andIntoA s v len).h = s.h := rfl
@[simp] theorem andIntoA_l : (andIntoA s v len).l = s.l := rfl
@[simp] theorem andIntoA_br : (andIntoA s v len).br = s.br := rfl
@[simp] theorem andIntoA_ix : (andIntoA s v len).ix = s.ix := rfl
@[simp] theorem andIntoA_iy : (andIntoA s v len).iy = s.iy := rfl
@[simp] theorem andIntoA_ep : (andIntoA s v len).ep = s.ep := rfl
@[simp] theorem andIntoA_xp : (andIntoA s v len).xp = s.xp := rfl
@[simp] theorem andIntoA_yp : (andIntoA s v len).yp = s.yp := rfl
@[simp] theorem andIntoA_sc : (andIntoA s v len).sc = nzOf (s.a &&& v) s.sc := rfl
@[simp] theorem andIntoA_pc : (andIntoA s v len).pc = (s.pc + len) % 2 ^ s.params.pcBits := rfl
@[simp] theorem andIntoA_mem : (andIntoA s v len).mem = s.mem := rfl
@[simp] theorem andIntoA_text : (andIntoA s v len).text = s.text := rfl
@[simp] theorem andIntoA_params : (andIntoA s v len).params = s.params := rfl
@[simp] theorem andIntoA_choices : (andIntoA s v len).choices = s.choices := rfl

variable (ea : Nat) (nz : Bool)

@[simp] theorem stored_a : (stored s ea v nz len).a = s.a := by cases nz <;> rfl
@[simp] theorem stored_b : (stored s ea v nz len).b = s.b := by cases nz <;> rfl
@[simp] theorem stored_h : (stored s ea v nz len).h = s.h := by cases nz <;> rfl
@[simp] theorem stored_l : (stored s ea v nz len).l = s.l := by cases nz <;> rfl
@[simp] theorem stored_br : (stored s ea v nz len).br = s.br := by cases nz <;> rfl
@[simp] theorem stored_ix : (stored s ea v nz len).ix = s.ix := by cases nz <;> rfl
@[simp] theorem stored_iy : (stored s ea v nz len).iy = s.iy := by cases nz <;> rfl
@[simp] theorem stored_ep : (stored s ea v nz len).ep = s.ep := by cases nz <;> rfl
@[simp] theorem stored_xp : (stored s ea v nz len).xp = s.xp := by cases nz <;> rfl
@[simp] theorem stored_yp : (stored s ea v nz len).yp = s.yp := by cases nz <;> rfl
@[simp] theorem stored_sc : (stored s ea v nz len).sc = if nz then nzOf v s.sc else s.sc := by cases nz <;> rfl
@[simp] theorem stored_pc : (stored s ea v nz len).pc = (s.pc + len) % 2 ^ s.params.pcBits := by cases nz <;> rfl
@[simp] theorem stored_mem : (stored s ea v nz len).mem = s.mem.store ea v := by cases nz <;> rfl
@[simp] theorem stored_text : (stored s ea v nz len).text = s.text := by cases nz <;> rfl
@[simp] theorem stored_params : (stored s ea v nz len).params = s.params := by cases nz <;> rfl
@[simp] theorem stored_choices : (stored s ea v nz len).choices = s.choices := by cases nz <;> rfl

end Fields

/-- `nzOf` as `setNZ`'s flag rule, for any state that holds it. -/
theorem nzFrom_of_sc {s t : State} {v : Byte} (h : t.sc = nzOf v s.sc) : NZFrom v s t := by
  unfold NZFrom State.flag
  rw [h]
  exact ⟨nzOf_n v s.sc, nzOf_z v s.sc, fun f hn hz => nzOf_other v s.sc hn hz⟩

/-- The update of `AND A, src` is what 40_and_a.md R76 says. -/
theorem andedIntoA_andIntoA (s : State) (v : Byte) (len : Nat) : AndedIntoA v len s (andIntoA s v len) :=
  ⟨rfl, nzFrom_of_sc rfl, rfl, rfl, rfl, rfl, ⟨rfl, rfl, rfl, rfl, rfl, rfl⟩, fun _ => rfl, rfl, rfl⟩

/-- The update of a memory destination is what 42_and_mem.md R93 says. -/
theorem andedIntoMem_stored (s : State) (ea : Nat) (v : Byte) (nz : Bool) (len : Nat) :
    AndedIntoMem ea v nz len s (stored s ea (s.mem.byte ea &&& v) nz len) := by
  refine ⟨by simp, fun addr h => by simp [byte_store_other _ _ _ _ h], ?_, ?_, by simp [Advanced], by simp, by simp,
    by simp, by simp, ⟨by simp, by simp, by simp, by simp, by simp, by simp⟩, by simp, by simp⟩
  · rintro rfl; exact nzFrom_of_sc rfl
  · rintro rfl; rfl

end Sys2Proof.Machine
end

