-- ==== Sys2Proof/Laws/Fetch.lean ====
section
/-! SUPPORT. The bytes a step is given. -/

namespace Sys2Proof.Machine

/-- The bytes fetched in a row begin with any list that stands at the address. -/
theorem fetchRun_prefix {s : State} {bytes : List Byte} {addr n : Nat}
    (h : ∀ k, k < bytes.length → fetch s (addr + k) = bytes[k]?) (hn : bytes.length ≤ n) :
    ∃ rest, fetchRun s addr n = bytes ++ rest := by
  induction bytes generalizing addr n with
  | nil => exact ⟨_, rfl⟩
  | cons v bytes ih =>
    obtain _ | n := n
    · simp at hn
    · have h0 : fetch s addr = some v := by simpa using h 0 (by simp)
      obtain ⟨rest, hrest⟩ := ih (addr := addr + 1) (n := n)
        (fun k hk => by simpa [Nat.add_assoc, Nat.add_comm 1 k] using h (k + 1) (by simpa using hk))
        (by simpa using hn)
      exact ⟨rest, by simp [fetchRun, h0, hrest]⟩

/-- Every byte fetched in a row stands at its address. -/
theorem fetchRun_getElem? {s : State} {addr n k : Nat} {v : Byte} (h : (fetchRun s addr n)[k]? = some v) :
    fetch s (addr + k) = some v := by
  induction n generalizing addr k with
  | zero => simp [fetchRun] at h
  | succ n ih =>
    simp only [fetchRun] at h
    split at h
    · simp at h
    · next w hw =>
      cases k with
      | zero => simpa [hw] using h
      | succ k =>
        have := ih (by simpa using h : (fetchRun s (addr + 1) n)[k]? = some v)
        rwa [Nat.add_assoc, Nat.add_comm 1 k] at this

/-- Where the row is shorter than asked for, the next byte has no value. -/
theorem fetchRun_stops {s : State} {addr n : Nat} (h : (fetchRun s addr n).length < n) :
    fetch s (addr + (fetchRun s addr n).length) = none := by
  induction n generalizing addr with
  | zero => omega
  | succ n ih =>
    simp only [fetchRun] at h ⊢
    split at h
    · next hw => simpa using hw
    · next w hw =>
      have := ih (addr := addr + 1) (by simpa using h)
      rw [Nat.add_assoc, Nat.add_comm 1] at this
      simpa using this

theorem fetchRun_length_le (s : State) (addr n : Nat) : (fetchRun s addr n).length ≤ n := by
  induction n generalizing addr with
  | zero => simp [fetchRun]
  | succ n ih =>
    simp only [fetchRun]
    split
    · simp
    · simpa using ih (addr + 1)

end Sys2Proof.Machine
end

