-- ==== Sys2Proof/Laws/Operands.lean ====
section
/-! SUPPORT. The signed offset sum as integer arithmetic (20_memory.md R42, R43). -/

namespace Sys2Proof.Machine

/-- The 16-bit sum of an offset and a sign-extended byte is the integer sum modulo 2^16. -/
theorem offset_add_sext16 (x : Offset) (d : Byte) :
    ((x + sext16 d).toNat : Int) = (x.toNat + d.toInt) % 65536 := by
  have hd : d.toInt.bmod 256 = d.toInt := by rw [BitVec.toInt_eq_toNat_bmod]; simp
  have hsum : x + sext16 d = BitVec.ofInt 16 (x.toNat + d.toInt) := by
    apply BitVec.eq_of_toInt_eq
    simp only [sext16, BitVec.toInt_add, BitVec.toInt_signExtend, BitVec.toInt_ofInt, BitVec.toInt_eq_toNat_bmod x]
    simp [hd]
  rw [hsum, BitVec.toNat_ofInt]
  simp
  omega

/-- An unpaged address does not depend on the page register (20_memory.md R36). -/
theorem physAddr_unpaged {p : Params} (h : p.paged = false) (page : Nat) (off : Offset) :
    physAddr p page off = off.toNat := by simp [physAddr, h]

/-- A paged address as a number, for a page register within its width (20_memory.md R36). -/
theorem physAddr_paged {p : Params} (h : p.paged = true) {page : Nat} (hp : page < 2 ^ p.pageBits) (off : Offset) :
    physAddr p page off = page * 65536 + off.toNat := by simp [physAddr, h, Nat.mod_eq_of_lt hp]

end Sys2Proof.Machine
end

