-- ==== Sys2Proof/Laws/PerInstr.lean ====
section
/-! SUPPORT. Statements about every instruction as syntax, one lemma per constructor. -/

namespace Sys2Proof.Laws.Shape

/-- The encoder writes as many bytes as 30_encoding.md R59 gives, between 1 and 3; the operand pair is legal and assembles
to the instruction (R72). -/
def Statement (i : Instr) : Prop :=
  (encode i).length = i.length ∧ 1 ≤ i.length ∧ i.length ≤ maxLength ∧ i.wellFormed = true ∧
    assemble i.operands = some i

theorem andAA : Statement .andAA := ⟨rfl, Nat.le_of_ble_eq_true rfl, Nat.le_of_ble_eq_true rfl, rfl, rfl⟩
theorem andAB : Statement .andAB := ⟨rfl, Nat.le_of_ble_eq_true rfl, Nat.le_of_ble_eq_true rfl, rfl, rfl⟩
theorem andAImm (nn : Byte) : Statement (.andAImm nn) := ⟨rfl, Nat.le_of_ble_eq_true rfl, Nat.le_of_ble_eq_true rfl, rfl, rfl⟩
theorem andAMHL : Statement .andAMHL := ⟨rfl, Nat.le_of_ble_eq_true rfl, Nat.le_of_ble_eq_true rfl, rfl, rfl⟩
theorem andAMBR (ll : Byte) : Statement (.andAMBR ll) := ⟨rfl, Nat.le_of_ble_eq_true rfl, Nat.le_of_ble_eq_true rfl, rfl, rfl⟩
theorem andAMAbs (ll hh : Byte) : Statement (.andAMAbs ll hh) := ⟨rfl, Nat.le_of_ble_eq_true rfl, Nat.le_of_ble_eq_true rfl, rfl, rfl⟩
theorem andAMIX : Statement .andAMIX := ⟨rfl, Nat.le_of_ble_eq_true rfl, Nat.le_of_ble_eq_true rfl, rfl, rfl⟩
theorem andAMIY : Statement .andAMIY := ⟨rfl, Nat.le_of_ble_eq_true rfl, Nat.le_of_ble_eq_true rfl, rfl, rfl⟩
theorem andSCImm (nn : Byte) : Statement (.andSCImm nn) := ⟨rfl, Nat.le_of_ble_eq_true rfl, Nat.le_of_ble_eq_true rfl, rfl, rfl⟩
theorem andMBRImm (ll nn : Byte) : Statement (.andMBRImm ll nn) := ⟨rfl, Nat.le_of_ble_eq_true rfl, Nat.le_of_ble_eq_true rfl, rfl, rfl⟩
theorem andAMIXd (dd : Byte) : Statement (.andAMIXd dd) := ⟨rfl, Nat.le_of_ble_eq_true rfl, Nat.le_of_ble_eq_true rfl, rfl, rfl⟩
theorem andAMIYd (dd : Byte) : Statement (.andAMIYd dd) := ⟨rfl, Nat.le_of_ble_eq_true rfl, Nat.le_of_ble_eq_true rfl, rfl, rfl⟩
theorem andAMIXL : Statement .andAMIXL := ⟨rfl, Nat.le_of_ble_eq_true rfl, Nat.le_of_ble_eq_true rfl, rfl, rfl⟩
theorem andAMIYL : Statement .andAMIYL := ⟨rfl, Nat.le_of_ble_eq_true rfl, Nat.le_of_ble_eq_true rfl, rfl, rfl⟩
theorem andMHLA : Statement .andMHLA := ⟨rfl, Nat.le_of_ble_eq_true rfl, Nat.le_of_ble_eq_true rfl, rfl, rfl⟩
theorem andMHLImm (nn : Byte) : Statement (.andMHLImm nn) := ⟨rfl, Nat.le_of_ble_eq_true rfl, Nat.le_of_ble_eq_true rfl, rfl, rfl⟩
theorem andMHLMIX : Statement .andMHLMIX := ⟨rfl, Nat.le_of_ble_eq_true rfl, Nat.le_of_ble_eq_true rfl, rfl, rfl⟩
theorem andMHLMIY : Statement .andMHLMIY := ⟨rfl, Nat.le_of_ble_eq_true rfl, Nat.le_of_ble_eq_true rfl, rfl, rfl⟩
theorem andBImm (nn : Byte) : Statement (.andBImm nn) := ⟨rfl, Nat.le_of_ble_eq_true rfl, Nat.le_of_ble_eq_true rfl, rfl, rfl⟩
theorem andLImm (nn : Byte) : Statement (.andLImm nn) := ⟨rfl, Nat.le_of_ble_eq_true rfl, Nat.le_of_ble_eq_true rfl, rfl, rfl⟩
theorem andHImm (nn : Byte) : Statement (.andHImm nn) := ⟨rfl, Nat.le_of_ble_eq_true rfl, Nat.le_of_ble_eq_true rfl, rfl, rfl⟩

end Sys2Proof.Laws.Shape
end

