-- ==== Sys2Proof/Tests/Slice0.lean ====
section
/-! SUPPORT. Tests: the WellFormed smoke, one word of every encoding, one step of every instruction on the values of
95_test_vectors.md, what stops, and for every statement with hypotheses a state that meets them (witness_…). Expected
values are the spec's: the section of 95_test_vectors.md or the rule stands above each group. -/

open Sys2Proof Sys2Proof.Machine

namespace Sys2Proof.Tests

/-! ### WellFormed: each check refuses an ill-formed pair (30_encoding.md R72 names the first four) -/

theorem test_wf_refuses_b_a : AsmPair.wellFormed ⟨.b, .a⟩ = false := by decide
theorem test_wf_refuses_b_mHL : AsmPair.wellFormed ⟨.b, .mHL⟩ = false := by decide
theorem test_wf_refuses_mHL_b : AsmPair.wellFormed ⟨.mHL, .b⟩ = false := by decide
theorem test_wf_refuses_mAbs_imm : AsmPair.wellFormed ⟨.mAbs 0x34#8 0x12#8, .imm 0x01#8⟩ = false := by decide
theorem test_wf_refuses_a_sc : AsmPair.wellFormed ⟨.a, .sc⟩ = false := by decide
theorem test_wf_refuses_imm_destination : AsmPair.wellFormed ⟨.imm 0x01#8, .a⟩ = false := by decide
theorem test_wf_accepts : (Instr.andMHLMIY).wellFormed = true := by decide
theorem test_spelling_displacement :
    (Instr.andAMIXd 0xFE#8).spelling = "AND A, [IX+FEH]".toList := by decide
theorem test_spelling_absolute :
    (Instr.andAMAbs 0xCD#8 0xAB#8).spelling = "AND A, [ABCDH]".toList := by decide

/-! ### Decoding: 95_test_vectors.md 2.8, bit rows of 30_encoding.md R61, R62 -/

theorem test_decode_andAA : decode [0b00100000#8] = .instr .andAA := by decide
theorem test_decode_andAB : decode [0b00100001#8] = .instr .andAB := by decide
theorem test_decode_andAImm : decode [0b00100010#8, 0x5A#8] = .instr (.andAImm 0x5A#8) := by decide
theorem test_decode_andAMHL : decode [0b00100011#8] = .instr .andAMHL := by decide
theorem test_decode_andAMBR : decode [0b00100100#8, 0x80#8] = .instr (.andAMBR 0x80#8) := by decide
theorem test_decode_andAMAbs : decode [0b00100101#8, 0xCD#8, 0xAB#8] = .instr (.andAMAbs 0xCD#8 0xAB#8) := by decide
theorem test_decode_andAMIX : decode [0b00100110#8] = .instr .andAMIX := by decide
theorem test_decode_andAMIY : decode [0b00100111#8] = .instr .andAMIY := by decide
theorem test_decode_andSCImm : decode [0b10011100#8, 0x3F#8] = .instr (.andSCImm 0x3F#8) := by decide
theorem test_decode_andMBRImm : decode [0b11011000#8, 0x80#8, 0x0F#8] = .instr (.andMBRImm 0x80#8 0x0F#8) := by decide
theorem test_decode_andAMIXd : decode [0b11001110#8, 0b00100000#8, 0xFE#8] = .instr (.andAMIXd 0xFE#8) := by decide
theorem test_decode_andAMIYd : decode [0b11001110#8, 0b00100001#8, 0x7F#8] = .instr (.andAMIYd 0x7F#8) := by decide
theorem test_decode_andAMIXL : decode [0b11001110#8, 0b00100010#8] = .instr .andAMIXL := by decide
theorem test_decode_andAMIYL : decode [0b11001110#8, 0b00100011#8] = .instr .andAMIYL := by decide
theorem test_decode_andMHLA : decode [0b11001110#8, 0b00100100#8] = .instr .andMHLA := by decide
theorem test_decode_andMHLImm : decode [0b11001110#8, 0b00100101#8, 0x0F#8] = .instr (.andMHLImm 0x0F#8) := by decide
theorem test_decode_andMHLMIX : decode [0b11001110#8, 0b00100110#8] = .instr .andMHLMIX := by decide
theorem test_decode_andMHLMIY : decode [0b11001110#8, 0b00100111#8] = .instr .andMHLMIY := by decide
theorem test_decode_andBImm : decode [0b11001110#8, 0b10110000#8, 0x0F#8] = .instr (.andBImm 0x0F#8) := by decide
theorem test_decode_andLImm : decode [0b11001110#8, 0b10110001#8, 0x0F#8] = .instr (.andLImm 0x0F#8) := by decide
theorem test_decode_andHImm : decode [0b11001110#8, 0b10110010#8, 0x0F#8] = .instr (.andHImm 0x0F#8) := by decide
/-- "06H, 07H" and "28H, 1FH, 9DH, D9H, 00H, FFH": not shown. -/
theorem test_decode_not_shown :
    [0x06#8, 0x07#8, 0x28#8, 0x1F#8, 0x9D#8, 0xD9#8, 0x00#8, 0xFF#8].all
      (fun v => decide (decode [v, 0x00#8, 0x00#8] = .notShown [v])) = true := by decide
/-- "CEH 28H, CEH B3H, CEH 00H, CEH CEH": not shown. -/
theorem test_decode_not_shown_after_CE :
    [0x28#8, 0xB3#8, 0x00#8, 0xCE#8].all
      (fun v => decide (decode [0xCE#8, v, 0x00#8] = .notShown [0xCE#8, v])) = true := by decide

/-! ### One step of each instruction. `launch` puts the bytes at pc = 1000H -/

/-- A launch state with these instruction bytes at pc and this data memory. -/
def launch (bytes : List Byte) (mem : Memory) : State :=
  { State.reset with pc := 0x1000, mem := mem }.loadAtPC bytes

/-- The same with `PAGED = false`. -/
def launchUnpaged (bytes : List Byte) (mem : Memory) : State :=
  { launch bytes mem with params := { Config.params with paged := false } }

/-- The step from `s` answers a state with the property. -/
def steps (s : State) (f : State → Bool) : Bool :=
  match step s with
  | .next t => f t
  | .fault _ => false
  | .refused _ => false

-- 2.1
theorem test_andAA_sets_N :
    steps { launch [0x20#8] [] with a := 0x92#8, sc := 0x00#8 }
      (fun t => t.a == 0x92#8 && t.sc == 0x08#8 && t.pc == 0x1001) = true := by decide
theorem test_andAA_zero :
    steps { launch [0x20#8] [] with a := 0x00#8, sc := 0x08#8 } (fun t => t.a == 0x00#8 && t.sc == 0x01#8) = true := by
  decide
theorem test_andAB :
    steps { launch [0x21#8] [] with a := 0xC3#8, b := 0x3C#8, sc := 0xF6#8 }
      (fun t => t.a == 0x00#8 && t.b == 0x3C#8 && t.sc == 0xF7#8 && t.pc == 0x1001) = true := by decide
theorem test_andAImm_keeps_other_flags :
    steps { launch [0x22#8, 0x80#8] [] with a := 0x7F#8, sc := 0xF6#8 }
      (fun t => t.a == 0x00#8 && t.sc == 0xF7#8 && t.pc == 0x1002) = true := by decide
theorem test_andAImm_clears_N :
    steps { launch [0x22#8, 0x3C#8] [] with a := 0xF0#8, sc := 0xC9#8 }
      (fun t => t.a == 0x30#8 && t.sc == 0xC0#8) = true := by decide

-- 2.2: the decoy address of each row holds another byte
theorem test_andAMHL :
    steps { launch [0x23#8] [(0x011234, 0x5A#8), (0x013412, 0x11#8), (0x021234, 0x22#8)] with
        a := 0xFF#8, h := 0x12#8, l := 0x34#8, ep := 1, xp := 2 }
      (fun t => t.a == 0x5A#8 && t.pc == 0x1001) = true := by decide
theorem test_andAMBR :
    steps { launch [0x24#8, 0x34#8] [(0x010034, 0x11#8), (0x010046, 0x22#8), (0x011234, 0x80#8)] with
        a := 0xFF#8, br := 0x12#8, ep := 1, sc := 0x00#8 }
      (fun t => t.a == 0x80#8 && t.sc == 0x08#8 && t.pc == 0x1002) = true := by decide
theorem test_andAMAbs :
    steps { launch [0x25#8, 0x34#8, 0x12#8] [(0x7F1234, 0xC3#8), (0x7F3412, 0x11#8)] with a := 0xFF#8, ep := 0x7F }
      (fun t => t.a == 0xC3#8 && t.pc == 0x1003) = true := by decide
theorem test_andAMIX :
    steps { launch [0x26#8] [(0x018000, 0xFF#8), (0x028000, 0x01#8)] with
        a := 0xFF#8, ix := 0x8000#16, ep := 1, xp := 2 }
      (fun t => t.a == 0x01#8 && t.pc == 0x1001) = true := by decide
theorem test_andAMIY_last_byte :
    steps { launch [0x27#8] [(0xFFFFFF, 0xFF#8)] with a := 0xFF#8, iy := 0xFFFF#16, yp := 0xFF }
      (fun t => t.a == 0xFF#8 && t.pc == 0x1001) = true := by decide
theorem test_andAMIXd_negative :
    steps { launch [0xCE#8, 0x20#8, 0xFB#8] [(0x027FFB, 0x22#8), (0x0280FB, 0x11#8)] with
        a := 0xFF#8, ix := 0x8000#16, xp := 2 }
      (fun t => t.a == 0x22#8 && t.pc == 0x1003) = true := by decide
-- 2.4, the wrap
theorem test_andAMIXd_wraps :
    steps { launch [0xCE#8, 0x20#8, 0x20#8] [(0x050010, 0x77#8), (0x060010, 0x11#8)] with
        a := 0xFF#8, ix := 0xFFF0#16, xp := 5 }
      (fun t => t.a == 0x77#8 && t.xp == 5 && t.ix == 0xFFF0#16) = true := by decide
theorem test_andAMIYd :
    steps { launch [0xCE#8, 0x21#8, 0x80#8] [(0x030080, 0x44#8), (0x030180, 0x11#8)] with
        a := 0xFF#8, iy := 0x0100#16, yp := 3 }
      (fun t => t.a == 0x44#8 && t.pc == 0x1003) = true := by decide
theorem test_andAMIYd_unpaged :
    steps { launchUnpaged [0xCE#8, 0x21#8, 0xFF#8] [(0xFFFF, 0x0F#8)] with a := 0xFF#8, yp := 7 }
      (fun t => t.a == 0x0F#8) = true := by decide
theorem test_andAMIXL :
    steps { launch [0xCE#8, 0x22#8] [(0x027FF0, 0x66#8), (0x0280F0, 0x11#8)] with
        a := 0xFF#8, ix := 0x8000#16, l := 0xF0#8, h := 0x99#8, xp := 2 }
      (fun t => t.a == 0x66#8 && t.l == 0xF0#8 && t.pc == 0x1002) = true := by decide
theorem test_andAMIXL_unpaged_wraps :
    steps { launchUnpaged [0xCE#8, 0x22#8] [(0x0000, 0xF0#8)] with a := 0xFF#8, ix := 0xFFFF#16, l := 0x01#8 }
      (fun t => t.a == 0xF0#8) = true := by decide
theorem test_andAMIYL_wraps :
    steps { launch [0xCE#8, 0x23#8] [(0x02FF90, 0x11#8), (0x030090, 0x22#8), (0x03FF90, 0x88#8)] with
        a := 0xFF#8, iy := 0x0010#16, l := 0x80#8, yp := 3 }
      (fun t => t.a == 0x88#8 && t.pc == 0x1002) = true := by decide

-- 2.5
theorem test_andBImm :
    steps { launch [0xCE#8, 0xB0#8, 0x00#8] [] with b := 0xFF#8, a := 0x55#8, sc := 0xC8#8 }
      (fun t => t.b == 0x00#8 && t.a == 0x55#8 && t.sc == 0xC1#8 && t.pc == 0x1003) = true := by decide
theorem test_andLImm :
    steps { launch [0xCE#8, 0xB1#8, 0xF0#8] [] with h := 0x12#8, l := 0x3F#8 }
      (fun t => t.hl == 0x1230#16 && t.pc == 0x1003) = true := by decide
theorem test_andHImm :
    steps { launch [0xCE#8, 0xB2#8, 0x7F#8] [] with h := 0xFF#8, l := 0x00#8, sc := 0x08#8 }
      (fun t => t.hl == 0x7F00#16 && t.sc == 0x00#8 && t.pc == 0x1003) = true := by decide

-- 2.6
theorem test_andSCImm_all_cleared :
    steps { launch [0x9C#8, 0x00#8] [] with sc := 0xFF#8 } (fun t => t.sc == 0x00#8 && t.pc == 0x1002) = true := by
  decide
theorem test_andSCImm_not_recomputed :
    steps { launch [0x9C#8, 0xF6#8] [] with sc := 0x09#8 } (fun t => t.sc == 0x00#8) = true := by decide

-- 2.7
theorem test_andMBRImm :
    steps { launch [0xD8#8, 0x34#8, 0x0F#8] [(0x011234, 0xA7#8)] with br := 0x12#8, ep := 1, sc := 0x06#8 }
      (fun t => t.mem == [(0x011234, 0x07#8)] && t.sc == 0x06#8 && t.pc == 0x1003) = true := by decide
/-- "With the switch AND_BRLL_IMM_WRITES_NZ set false … the first three rows would leave SC at 06H, 01H and 00H." -/
theorem test_andMBRImm_switched :
    steps { launch [0xD8#8, 0x00#8, 0xFF#8] [(0x000000, 0x80#8)] with
        sc := 0x01#8, params := { Config.params with brllImmWritesNZ := false } }
      (fun t => t.mem == [(0x000000, 0x80#8)] && t.sc == 0x01#8) = true := by decide
theorem test_andMHLA :
    steps { launch [0xCE#8, 0x24#8] [(0x012000, 0x3C#8)] with a := 0xF0#8, h := 0x20#8, ep := 1, sc := 0x09#8 }
      (fun t => t.mem == [(0x012000, 0x30#8)] && t.a == 0xF0#8 && t.sc == 0x00#8 && t.pc == 0x1002) = true := by
  decide
theorem test_andMHLImm :
    steps { launch [0xCE#8, 0x25#8, 0x7F#8] [(0x02FFFF, 0xFF#8)] with
        h := 0xFF#8, l := 0xFF#8, ep := 2, sc := 0x08#8 }
      (fun t => t.mem == [(0x02FFFF, 0x7F#8)] && t.sc == 0x00#8 && t.pc == 0x1003) = true := by decide
theorem test_andMHLMIX :
    steps { launch [0xCE#8, 0x26#8] [(0x012000, 0xD6#8), (0x022000, 0x93#8)] with
        h := 0x20#8, ep := 1, xp := 2, ix := 0x2000#16, sc := 0x00#8 }
      (fun t => t.mem == [(0x012000, 0x92#8), (0x022000, 0x93#8)] && t.sc == 0x08#8 && t.pc == 0x1002) = true := by
  decide
theorem test_andMHLMIY_unpaged :
    steps { launchUnpaged [0xCE#8, 0x27#8] [(0x1000, 0x0F#8), (0x1001, 0xF0#8)] with
        h := 0x10#8, iy := 0x1001#16, sc := 0x00#8 }
      (fun t => t.mem.byte 0x1000 == 0x00#8 && t.mem.byte 0x1001 == 0xF0#8 && t.sc == 0x01#8) = true := by decide

-- 3.4: pc wraps at the top of the program space
theorem test_pc_wraps :
    steps ({ State.reset with pc := 0xFFFE, a := 0xF5#8 }.loadAtPC [0x22#8, 0x0F#8, 0x21#8])
      (fun t => t.a == 0x05#8 && t.pc == 0x0000 && fetch t t.pc == some 0x21#8) = true := by decide

/-! ### What stops (30_encoding.md R68; 20_memory.md R52, R58) -/

/-- The step from `s` is refused for this reason. -/
def refuses (s : State) (r : Refusal) : Bool :=
  match step s with
  | .next _ => false
  | .fault _ => false
  | .refused q => decide (q = r)

/-- The step from `s` is stuck for this reason. -/
def sticks (s : State) (e : Fault) : Bool :=
  match step s with
  | .next _ => false
  | .fault f => decide (f = e)
  | .refused _ => false

/-- A platform with a hole at 010000H, a device at 010001H and code at 010002H, a byte each. -/
def platform : Params :=
  { Config.params with unmapped := [⟨0x010000, 1⟩], sideEffect := [⟨0x010001, 1⟩], codeRegion := [⟨0x010002, 1⟩] }

theorem test_not_shown_refused : refuses (launch [0x28#8] []) (.notShown [0x28#8]) = true := by decide
/-- "CEH at the last byte of the program text: stuck". -/
theorem test_truncated_stuck : sticks (launch [0xCE#8] []) (.noFetch 0x1001) = true := by decide
theorem test_reset_has_no_text : sticks State.reset (.noFetch 0) = true := by decide
theorem test_unmapped_stuck :
    sticks { launch [0x23#8] [] with ep := 1, params := platform } (.unmapped 0x010000) = true := by decide
theorem test_side_effect_refused :
    refuses { launch [0x23#8] [] with ep := 1, l := 0x01#8, params := platform } (.sideEffect 0x010001) = true := by
  decide
theorem test_code_write_refused :
    refuses { launch [0xCE#8, 0x24#8] [] with ep := 1, l := 0x02#8, params := platform } (.codeWrite 0x010002) = true := by
  decide
theorem test_code_read_admitted :
    steps { launch [0x23#8] [] with ep := 1, l := 0x02#8, params := platform } (fun t => t.pc == 0x1001) = true := by
  decide
theorem test_withFetchWord_from_reset :
    steps (State.reset.withFetchWord 24 0xCE2000) (fun t => t.pc == 3) = true := by decide

/-! ### Witnesses: states and operands that meet the hypotheses of the statements -/

/-- All of memory admitted but the three bytes of `platform`; EP page 1, so [HL] stands next to them. -/
def near : State :=
  { State.reset with
    params := platform, ep := 1, xp := 2, yp := 0xFF, h := 0xFF#8, l := 0xFF#8, br := 0x00#8,
    ix := 0x0000#16, iy := 0xFFFF#16, a := 0x93#8, mem := [(0x01FFFF, 0xD6#8)] }

theorem witness_DecodeAndEncodeAgree :
    (Instr.andMBRImm 0xFF#8 0x00#8).wellFormed = true ∧
      decode [0xCE#8, 0xB2#8, 0x00#8, 0x55#8] = .instr (.andHImm 0x00#8) := by decide
theorem witness_DecoderNeedsExactlyTheLength :
    decode [0xD8#8, 0xFF#8, 0x00#8] = .instr (.andMBRImm 0xFF#8 0x00#8) := by decide
theorem witness_StepRunsDecodedInstruction : CodeAdmitted (.andAMAbs 0xFF#8 0xFF#8) (launch [0x25#8, 0xFF#8, 0xFF#8] []) := by
  unfold CodeAdmitted; decide
theorem witness_StepRefusesNotShown_first :
    fetch (launch [0x1F#8] []) 0x1000 = some 0x1F#8 ∧
      0x1F#8 ∉ [0x20#8, 0x21#8, 0x22#8, 0x23#8, 0x24#8, 0x25#8, 0x26#8, 0x27#8, 0x9C#8, 0xD8#8, 0xCE#8] := by decide
theorem witness_StepRefusesNotShown_second :
    fetch (launch [0xCE#8, 0xCE#8] []) 0x1000 = some 0xCE#8 ∧ fetch (launch [0xCE#8, 0xCE#8] []) 0x1001 = some 0xCE#8 ∧
      0xCE#8 ∉ [0x20#8, 0x21#8, 0x22#8, 0x23#8, 0x24#8, 0x25#8, 0x26#8, 0x27#8, 0xB0#8, 0xB1#8, 0xB2#8] := by decide
theorem witness_StepStuckWhereFetchHasNoValue :
    2 < (encode (.andAMIXd 0x00#8)).length ∧
      (∀ j, j < 2 → fetch (launch [0xCE#8, 0x20#8] []) (0x1000 + j) = (encode (.andAMIXd 0x00#8))[j]?) ∧
      fetch (launch [0xCE#8, 0x20#8] []) 0x1002 = none := by decide
theorem witness_PlacedWordRunsNext :
    2 ≤ { Config.params with pcBits := 2 }.pcBits ∧ decodeTableWord 24 0xD8FF00 = some (.andMBRImm 0xFF#8 0x00#8) := by
  decide
/-- Do the bytes, and no other byte of the text, stand at 1000H and after. -/
def standsAlone (bytes : List Byte) : Bool :=
  decide (fetchRun (launch bytes []) 0x1000 4 = bytes)

/-- One text per clause of InstructionStreamByteOrder, with the clause's bytes and none after them. -/
theorem witness_InstructionStreamByteOrder :
    ([[0x20#8], [0x21#8], [0x23#8], [0x26#8], [0x27#8], [0x22#8, 0xFF#8], [0x24#8, 0xFF#8], [0x9C#8, 0xFF#8],
      [0x25#8, 0x34#8, 0x12#8], [0xD8#8, 0x34#8, 0x0F#8]].all standsAlone ∧
    [0x22#8, 0x23#8, 0x24#8, 0x26#8, 0x27#8].all (fun v => standsAlone [0xCE#8, v]) ∧
    [0x20#8, 0x21#8, 0x25#8, 0xB0#8, 0xB1#8, 0xB2#8].all (fun v => standsAlone [0xCE#8, v, 0x80#8])) = true := by decide
theorem witness_AndAFromAbsoluteAddress : Readable near (eaBR near 0x03#8) ∧ Readable near (eaAbs near 0xFF#8 0xFF#8) := by
  unfold Readable; decide
theorem witness_AndAFromRegisterIndirect :
    Readable near (eaHL near) ∧ Readable near (eaIX near) ∧ Readable near (eaIY near) := by unfold Readable; decide
theorem witness_AndAWithDisplacement : Readable near (eaIXd near 0x80#8) ∧ Readable near (eaIYd near 0x7F#8) := by
  unfold Readable; decide
theorem witness_AndAWithIndexRegister : Readable near (eaIXL near) ∧ Readable near (eaIYL near) := by
  unfold Readable; decide
theorem witness_AndImmediateIntoBRll : Writable near (eaBR near 0x03#8) ∧ near.params.brllImmWritesNZ = true := by
  unfold Writable Readable; decide
theorem witness_AndIntoHLByte : Writable near (eaHL near) := by unfold Writable Readable; decide
theorem witness_AndMemoryIntoHLByte :
    Writable near (eaHL near) ∧ Readable near (eaIX near) ∧ Readable near (eaIY near) := by
  unfold Writable Readable; decide
theorem witness_AndImmediateIntoSC : { near with sc := 0x5A#8 }.sc = 0x5A#8 := by decide
theorem witness_OneAndForEveryEncoding : ∃ t, exec .andMHLMIX near = .next t := ⟨_, rfl⟩
theorem witness_NAndZFollowTheResult :
    (∀ nn, Instr.andMBRImm 0x03#8 0xFF#8 ≠ .andSCImm nn) ∧ near.params.brllImmWritesNZ = true ∧
      ∃ t, exec (.andMBRImm 0x03#8 0xFF#8) near = .next t := ⟨fun _ => by simp, rfl, _, rfl⟩
theorem witness_OtherFlagsChangeOnlyThroughSC :
    (∀ nn, Instr.andAB ≠ .andSCImm nn) ∧ ∃ t, exec .andAB near = .next t := ⟨fun _ => by simp, _, rfl⟩
theorem witness_FlagsDoNotFeedTheResult :
    (∀ nn, Instr.andMHLA ≠ .andSCImm nn) ∧ ((∃ ll nn, Instr.andMHLA = .andMBRImm ll nn) → near.params.brllImmWritesNZ = true) ∧
      ∃ t, exec .andMHLA near = .next t := ⟨fun _ => by simp, fun _ => rfl, _, rfl⟩
/-- For StepOnlyClearsBits, StepAdvancesByTheLength, StepKeepsAddressRegistersAndLaunch and StepKeepsTheInvariant. -/
theorem witness_step_with_store :
    (near.loadAtPC [0xCE#8, 0x24#8]).wf ∧ ∃ t, step (near.loadAtPC [0xCE#8, 0x24#8]) = .next t :=
  ⟨by decide, _, rfl⟩
theorem witness_FrameOfAForms :
    (Instr.andAMIYd 0x7F#8).operands.dst = .a ∧ ∃ t, exec (.andAMIYd 0x7F#8) near = .next t := ⟨rfl, _, rfl⟩
theorem witness_FrameOfBLHForms :
    (∃ t, exec (.andBImm 0x00#8) near = .next t) ∧ (∃ t, exec (.andLImm 0x00#8) near = .next t) ∧
      ∃ t, exec (.andHImm 0x00#8) near = .next t := ⟨⟨_, rfl⟩, ⟨_, rfl⟩, _, rfl⟩
theorem witness_FrameOfSCForm : ∃ t, exec (.andSCImm 0x00#8) near = .next t := ⟨_, rfl⟩
theorem witness_FrameOfMemoryForms :
    (storeAddr (.andMBRImm 0x03#8 0x00#8) near = some (eaBR near 0x03#8) ∧
      ∃ t, exec (.andMBRImm 0x03#8 0x00#8) near = .next t) ∧
    storeAddr .andMHLMIY near = some (eaHL near) ∧ ∃ t, exec .andMHLMIY near = .next t :=
  ⟨⟨rfl, _, rfl⟩, rfl, _, rfl⟩
theorem witness_MemWriteChangesOneByte :
    (∃ t, memWrite near 0x010003 0x00#8 = .next t) ∧
    (storeAddr (.andAMBR 0x02#8) near = none ∧ ∃ t, exec (.andAMBR 0x02#8) near = .next t) ∧
    storeAddr .andMHLA near = some (eaHL near) := ⟨⟨_, rfl⟩, ⟨rfl, _, rfl⟩, rfl⟩
theorem witness_PhysicalAddressIsPageThenOffset :
    0xFF < 2 ^ Config.params.pageBits ∧ 0 < 2 ^ Config.params.pageBits ∧ Config.params.paged = true ∧
      { Config.params with paged := false }.paged = false := by decide
/-- For EffectiveAddressesWithoutSum and EffectiveAddressesOfSignedSums: pages 1, 2 and the last. -/
theorem witness_effective_addresses : near.pagesFit := by decide
theorem witness_UnpagedStepIgnoresPageRegisters :
    (launchUnpaged [0x23#8] []).params.paged = false ∧ ∃ t, step (launchUnpaged [0x23#8] []) = .next t := ⟨rfl, _, rfl⟩
theorem witness_ReadOrderDoesNotShow : ∃ t, exec .andMHLMIY near = .next t := ⟨_, rfl⟩
theorem witness_SameByteAsSourceAndDestination :
    Writable { near with xp := 1, ix := 0xFFFF#16, yp := 1 } (eaHL { near with xp := 1, ix := 0xFFFF#16, yp := 1 }) ∧
    eaIX { near with xp := 1, ix := 0xFFFF#16, yp := 1 } = eaHL { near with xp := 1, ix := 0xFFFF#16, yp := 1 } ∧
    eaIY { near with xp := 1, ix := 0xFFFF#16, yp := 1 } = eaHL { near with xp := 1, ix := 0xFFFF#16, yp := 1 } := by
  unfold Writable Readable; decide
theorem witness_NextInstructionSeesTheEffects :
    (∃ t, exec (.andLImm 0xF0#8) near = .next t) ∧
    Readable near (physAddr near.params near.ep (near.h ++ (near.l &&& 0xF0#8))) ∧
    ∃ t, exec .andMHLA near = .next t := ⟨⟨_, rfl⟩, by unfold Readable; decide, _, rfl⟩

/-- Program 4 of 95_test_vectors.md (3.4) in a program space of 16 bytes: the text wraps from address 15 to 0. -/
def wrapped : State :=
  { State.reset with params := { Config.params with pcBits := 4 }, pc := 14 }.loadAtPC [0x22#8, 0x0F#8, 0x21#8]

theorem witness_StraightLineTextRunsToItsEnd :
    PlainPlatform wrapped.params ∧ wrapped.pc < 2 ^ wrapped.params.pcBits ∧
      Occupies wrapped wrapped.pc ([Instr.andAImm 0x0F#8, .andAB].flatMap encode).length ∧
      ∀ k, k < ([Instr.andAImm 0x0F#8, .andAB].flatMap encode).length →
        fetch wrapped (wrapped.pc + k) = ([Instr.andAImm 0x0F#8, .andAB].flatMap encode)[k]? := by
  unfold PlainPlatform Occupies; decide
/-- Log 24: where the text fills the program space, the launch state is `Final` and has a step. -/
def fullText : State :=
  { State.reset with params := { Config.params with pcBits := 1 } }.loadAtPC [0x20#8, 0x21#8]

theorem test_full_text_is_final_at_launch : Final fullText 0 2 ∧ steps fullText (fun t => t.pc == 1) = true := by
  unfold Final Occupies; decide
theorem witness_FinalStateHasNoStep :
    3 < 2 ^ wrapped.params.pcBits ∧ Final { wrapped with pc := 1 } 14 3 := by
  unfold Final Occupies; decide

end Sys2Proof.Tests
end

section
/-! SUPPORT. The decoder and the encoder read against each other (30_encoding.md R67, R71), what stands in the text after
a load (10_state.md R28), and the step in terms of the bytes at pc. -/

namespace Sys2Proof.Machine

/-! ### The decoder -/

theorem decodeOne_eq_instr {k : Nat} {f : Byte → Instr} {ops : List Byte} {i : Instr} :
    decodeOne k f ops = .instr i ↔ ∃ x rest, ops = x :: rest ∧ i = f x := by
  cases ops <;> simp [decodeOne, eq_comm]

theorem decodeTwo_eq_instr {k : Nat} {f : Byte → Byte → Instr} {ops : List Byte} {i : Instr} :
    decodeTwo k f ops = .instr i ↔ ∃ x y rest, ops = x :: y :: rest ∧ i = f x y := by
  rcases ops with _ | ⟨x, _ | ⟨y, rest⟩⟩ <;> simp [decodeTwo, eq_comm]

theorem decode_encode_append (i : Instr) (rest : List Byte) : decode (encode i ++ rest) = .instr i := by
  cases i <;> rfl

/-- What the second-byte map reads, CEH before it, is the encoding of the instruction it answers (30_encoding.md R62). -/
theorem encode_append_of_decodeAfterCE {ops : List Byte} {i : Instr} (h : decodeAfterCE ops = .instr i) :
    ∃ rest, 0xCE#8 :: ops = encode i ++ rest := by
  unfold decodeAfterCE at h
  split at h
  · cases h
  · split at h
    case h_3 | h_4 | h_5 | h_7 | h_8 => cases h; exact ⟨_, rfl⟩
    case h_12 => cases h
    all_goals obtain ⟨x, rest, rfl, rfl⟩ := decodeOne_eq_instr.1 h; exact ⟨rest, rfl⟩

/-- The decoder reads an instruction from its own encoding only (30_encoding.md R61, R71). -/
theorem encode_append_of_decode {bytes : List Byte} {i : Instr} (h : decode bytes = .instr i) :
    ∃ rest, bytes = encode i ++ rest := by
  unfold decode at h
  split at h
  · cases h
  · split at h
    case h_1 | h_2 | h_4 | h_7 | h_8 => cases h; exact ⟨_, rfl⟩
    case h_6 | h_10 => obtain ⟨x, y, rest, rfl, rfl⟩ := decodeTwo_eq_instr.1 h; exact ⟨rest, rfl⟩
    case h_11 => exact encode_append_of_decodeAfterCE h
    case h_12 => cases h
    all_goals obtain ⟨x, rest, rfl, rfl⟩ := decodeOne_eq_instr.1 h; exact ⟨rest, rfl⟩

/-- An encoding cut off before byte `k` makes the decoder ask for byte `k` (30_encoding.md R67). -/
theorem decode_take_encode {i : Instr} {k : Nat} (hk : k < (encode i).length) :
    decode ((encode i).take k) = .needByte k := by
  cases i <;> simp only [encode, List.length_cons, List.length_nil] at hk <;> interval_cases k <;> rfl

/-- Encoded length, bounds, legality and assembly of every instruction (30_encoding.md R59, R72). -/
theorem shape (i : Instr) : Laws.Shape.Statement i :=
  match i with
  | .andAA => Laws.Shape.andAA
  | .andAB => Laws.Shape.andAB
  | .andAImm nn => Laws.Shape.andAImm nn
  | .andAMHL => Laws.Shape.andAMHL
  | .andAMBR ll => Laws.Shape.andAMBR ll
  | .andAMAbs ll hh => Laws.Shape.andAMAbs ll hh
  | .andAMIX => Laws.Shape.andAMIX
  | .andAMIY => Laws.Shape.andAMIY
  | .andSCImm nn => Laws.Shape.andSCImm nn
  | .andMBRImm ll nn => Laws.Shape.andMBRImm ll nn
  | .andAMIXd dd => Laws.Shape.andAMIXd dd
  | .andAMIYd dd => Laws.Shape.andAMIYd dd
  | .andAMIXL => Laws.Shape.andAMIXL
  | .andAMIYL => Laws.Shape.andAMIYL
  | .andMHLA => Laws.Shape.andMHLA
  | .andMHLImm nn => Laws.Shape.andMHLImm nn
  | .andMHLMIX => Laws.Shape.andMHLMIX
  | .andMHLMIY => Laws.Shape.andMHLMIY
  | .andBImm nn => Laws.Shape.andBImm nn
  | .andLImm nn => Laws.Shape.andLImm nn
  | .andHImm nn => Laws.Shape.andHImm nn

theorem length_encode_le (i : Instr) : (encode i).length ≤ maxLength := by
  obtain ⟨hlen, -, hmax, -⟩ := shape i
  omega

/-! ### The bytes at pc -/

/-- Where a list stands at an address and nothing after it, the row fetched there is that list. -/
theorem fetchRun_eq_of_gap {s : State} {bytes : List Byte} {addr n : Nat}
    (h : ∀ k, k < bytes.length → fetch s (addr + k) = bytes[k]?) (hn : bytes.length ≤ n)
    (hgap : fetch s (addr + bytes.length) = none) : fetchRun s addr n = bytes := by
  obtain ⟨rest, hrest⟩ := fetchRun_prefix h hn
  cases rest with
  | nil => simpa using hrest
  | cons v rest =>
    have hv : fetch s (addr + bytes.length) = some v := fetchRun_getElem? (n := n) (by simp [hrest])
    simp [hgap] at hv

/-- Where a list of the length asked for stands at an address, the row fetched there is that list. -/
theorem fetchRun_eq_of_length {s : State} {bytes : List Byte} {addr : Nat}
    (h : ∀ k, k < bytes.length → fetch s (addr + k) = bytes[k]?) : fetchRun s addr bytes.length = bytes := by
  obtain ⟨rest, hrest⟩ := fetchRun_prefix h le_rfl
  have hlen := fetchRun_length_le s addr bytes.length
  rw [hrest, List.length_append] at hlen
  have : rest = [] := List.eq_nil_of_length_eq_zero (by omega)
  simpa [this] using hrest

/-- The bytes fetched depend on the text and the width of pc only (10_state.md R28). -/
theorem fetchRun_congr {s s' : State} (htext : s'.text = s.text) (hparams : s'.params = s.params) (addr n : Nat) :
    fetchRun s' addr n = fetchRun s addr n := by
  induction n generalizing addr with
  | zero => rfl
  | succ n ih =>
    have hfetch : fetch s' addr = fetch s addr := by simp [fetch, htext, hparams]
    simp only [fetchRun, hfetch, ih]

/-! ### The step -/

theorem step_of_decode {s : State} {i : Instr} (h : decode (fetchWindow s) = .instr i) : step s = exec i s := by
  simp [step, h]

theorem step_of_needByte {s : State} {k : Nat} (h : decode (fetchWindow s) = .needByte k) :
    step s = .fault (.noFetch ((s.pc + k) % 2 ^ s.params.pcBits)) := by
  simp [step, h]

theorem decode_fetchWindow_of_codeAdmitted {i : Instr} {s : State} (h : CodeAdmitted i s) :
    decode (fetchWindow s) = .instr i := by
  obtain ⟨rest, hrest⟩ := fetchRun_prefix h (length_encode_le i)
  rw [fetchWindow, hrest, decode_encode_append]

theorem codeAdmitted_of_decode {i : Instr} {s : State} (h : decode (fetchWindow s) = .instr i) : CodeAdmitted i s := by
  intro k hk
  obtain ⟨rest, hrest⟩ := encode_append_of_decode h
  have hget : (fetchWindow s)[k]? = some (encode i)[k] := by
    rw [hrest, List.getElem?_append_left hk, List.getElem?_eq_getElem hk]
  rw [fetchRun_getElem? hget, List.getElem?_eq_getElem hk]

/-- A step with a next state is the meaning of the instruction whose bytes stand at pc. -/
theorem exec_of_step {s t : State} (h : step s = .next t) : ∃ i, CodeAdmitted i s ∧ exec i s = .next t := by
  cases hd : decode (fetchWindow s) with
  | instr i => exact ⟨i, codeAdmitted_of_decode hd, step_of_decode hd ▸ h⟩
  | notShown opcode => simp [step, hd] at h
  | needByte k => simp [step, hd] at h

/-! ### Loading -/

/-- A load changes no byte at an address it does not put one at. -/
theorem cellAt_putBytes_other {pcBits : Nat} {text : Text} {addr other : Nat} {bytes : List Byte}
    (h : ∀ k, k < bytes.length → (addr + k) % 2 ^ pcBits ≠ other) :
    cellAt (putBytes pcBits text addr bytes) other = cellAt text other := by
  induction bytes generalizing text addr with
  | nil => rfl
  | cons v bytes ih =>
    have hhead : addr % 2 ^ pcBits ≠ other := h 0 (by simp)
    rw [putBytes, ih, cellAt_putCell, if_neg hhead]
    intro k hk
    simpa [Nat.add_assoc, Nat.add_comm 1 k] using h (k + 1) (by simpa using hk)

/-- Addresses less than the program space apart are different modulo its size. -/
theorem add_mod_two_pow_ne {n addr k : Nat} (hk : k + 1 < 2 ^ n) : (addr + 1 + k) % 2 ^ n ≠ addr % 2 ^ n := by
  intro h
  have hmod : (addr + (k + 1)) ≡ addr + 0 [MOD 2 ^ n] := by
    simpa [Nat.ModEq, Nat.add_assoc, Nat.add_comm 1 k] using h
  have hzero := Nat.ModEq.add_left_cancel' addr hmod
  rw [Nat.ModEq, Nat.mod_eq_of_lt hk, Nat.zero_mod] at hzero
  omega

/-- Bytes that fit the program space stand, after the load, where they were put. -/
theorem cellAt_putBytes {pcBits : Nat} {text : Text} {addr k : Nat} {bytes : List Byte}
    (hfit : bytes.length ≤ 2 ^ pcBits) (hk : k < bytes.length) :
    cellAt (putBytes pcBits text addr bytes) ((addr + k) % 2 ^ pcBits) = bytes[k]? := by
  induction bytes generalizing text addr k with
  | nil => simp at hk
  | cons v bytes ih =>
    rw [List.length_cons] at hfit hk
    cases k with
    | zero =>
      rw [putBytes, Nat.add_zero addr, cellAt_putBytes_other, cellAt_putCell, if_pos rfl, List.getElem?_cons_zero]
      exact fun j hj => add_mod_two_pow_ne (by omega)
    | succ k =>
      have := ih (text := putCell text (addr % 2 ^ pcBits) v) (addr := addr + 1) (k := k) (by omega) (by omega)
      rwa [Nat.add_assoc, Nat.add_comm 1 k] at this

theorem fetch_loadAtPC {s : State} {bytes : List Byte} {k : Nat} (hfit : bytes.length ≤ 2 ^ s.params.pcBits)
    (hk : k < bytes.length) : fetch (s.loadAtPC bytes) (s.pc + k) = bytes[k]? :=
  cellAt_putBytes hfit hk

/-- The decoder is given the bytes just loaded, where they are as many as the longest instruction has. -/
theorem fetchWindow_loadAtPC {s : State} {bytes : List Byte} (hlen : bytes.length = maxLength)
    (hfit : maxLength ≤ 2 ^ s.params.pcBits) : fetchWindow (s.loadAtPC bytes) = bytes := by
  rw [fetchWindow, ← hlen]
  exact fetchRun_eq_of_length fun k hk => fetch_loadAtPC (hlen ▸ hfit) hk

theorem length_paddedTableBytes {nbits : Nat} (h : nbits ≤ 24) (w : Nat) :
    (paddedTableBytes nbits w).length = maxLength := by
  simp only [paddedTableBytes, tableBytes, maxLength, List.length_append, List.length_map, List.length_range,
    List.length_replicate]
  omega

theorem decodeTableWord_eq_some {nbits w : Nat} {i : Instr} :
    decodeTableWord nbits w = some i ↔ decode (paddedTableBytes nbits w) = .instr i := by
  unfold decodeTableWord
  cases decode (paddedTableBytes nbits w) <;> simp

/-! ### The statements about the step -/

/-- Settles O8: the bytes at pc begin the window, and the decoder reads an encoding back. -/
theorem stepRunsDecodedInstruction : Obligations.StepRunsDecodedInstruction :=
  fun _ _ h => step_of_decode (decode_fetchWindow_of_codeAdmitted h)

/-- Settles O10: the window is the first `k` bytes of the encoding, and the decoder asks for byte `k`. -/
theorem stepStuckWhereFetchHasNoValue : Obligations.StepStuckWhereFetchHasNoValue := by
  intro s i k hk hbytes hgap
  have hlen : ((encode i).take k).length = k := by rw [List.length_take]; omega
  have hwindow : fetchWindow s = (encode i).take k := by
    refine fetchRun_eq_of_gap (fun j hj => ?_) ?_ (by rwa [hlen])
    · rw [hlen] at hj
      rw [hbytes j hj, List.getElem?_take_of_lt hj]
    · have := length_encode_le i
      omega
  exact step_of_needByte (hwindow ▸ decode_take_encode hk)

/-- Settles O14: the loaded bytes are the window of the next step. -/
theorem placedWordRunsNext : Obligations.PlacedWordRunsNext := by
  intro s nbits w i hbits hpc hword
  have hfit : maxLength ≤ 2 ^ s.params.pcBits := by
    have := Nat.pow_le_pow_right (n := 2) (by omega) hpc
    unfold maxLength
    omega
  apply step_of_decode
  rw [State.withFetchWord, fetchWindow_loadAtPC (length_paddedTableBytes hbits w) hfit]
  exact decodeTableWord_eq_some.1 hword

end Sys2Proof.Machine
end

section
/-! SUPPORT. What a completed instruction does to each part of the state, from `exec_cases`: pc, the address registers and
the launch, data memory, SC. -/

namespace Sys2Proof.Machine

/-! ### pc, address registers, launch -/

theorem exec_pc {i : Instr} {s t : State} (h : exec i s = .next t) :
    t.pc = (s.pc + i.length) % 2 ^ s.params.pcBits := by
  rcases exec_cases h with ⟨-, -, rfl⟩ | ⟨nn, rfl, rfl⟩ | ⟨nn, rfl, rfl⟩ | ⟨nn, rfl, rfl⟩ | ⟨nn, rfl, rfl⟩ |
    ⟨ea, s', nz, -, -, rfl | rfl, -, rfl⟩ <;> simp [Instr.length]

theorem exec_keeps {i : Instr} {s t : State} (h : exec i s = .next t) : KeepsAddressRegs s t ∧ KeepsLaunch s t := by
  unfold KeepsAddressRegs KeepsLaunch
  rcases exec_cases h with ⟨-, -, rfl⟩ | ⟨nn, -, rfl⟩ | ⟨nn, -, rfl⟩ | ⟨nn, -, rfl⟩ | ⟨nn, -, rfl⟩ |
    ⟨ea, s', nz, -, -, rfl | rfl, -, rfl⟩ <;> simp

/-! ### Data memory -/

/-- Memory is kept, or one writable byte of it is replaced by its AND with a byte (42_and_mem.md R93). -/
theorem exec_mem {i : Instr} {s t : State} (h : exec i s = .next t) :
    t.mem = s.mem ∨ ∃ ea v, Writable s ea ∧ t.mem = s.mem.store ea (s.mem.byte ea &&& v) := by
  rcases exec_cases h with ⟨-, -, rfl⟩ | ⟨nn, -, rfl⟩ | ⟨nn, -, rfl⟩ | ⟨nn, -, rfl⟩ | ⟨nn, -, rfl⟩ |
    ⟨ea, s', nz, -, hw, hs', -, rfl⟩
  any_goals exact .inl rfl
  refine .inr ⟨ea, operandValue i.operands.src s, hw, ?_⟩
  rcases hs' with rfl | rfl <;> simp

/-- An admitted address lies in the physical space (20_memory.md R35, R52). -/
theorem Readable.lt {s : State} {ea : Nat} (h : Readable s ea) : ea < 2 ^ physBits s.params := by
  obtain ⟨hmapped, -⟩ := h
  unfold mapped at hmapped
  simp only [Bool.and_eq_true, decide_eq_true_eq] at hmapped
  exact hmapped.1

/-- A store inside the physical space keeps memory canonical and inside it (20_memory.md R35; log 7). -/
theorem memFits_of_store {s t : State} {ea : Nat} {v : Byte} (hs : s.memFits) (hea : ea < 2 ^ physBits s.params)
    (hparams : t.params = s.params) (hmem : t.mem = s.mem.store ea v) : t.memFits := by
  obtain ⟨hwf, hinside⟩ := hs
  unfold State.memFits
  rw [hmem, hparams]
  refine ⟨wf_store hwf ea v, fun c hc => ?_⟩
  rcases mem_store hc with hc | hc
  · exact hc ▸ hea
  · exact hinside c hc

/-- An AND has no bit set that was not set before (40_and_a.md R75). -/
theorem and_and_old (x v : Byte) : x &&& v &&& x = x &&& v := by
  rw [BitVec.and_comm, ← BitVec.and_assoc, BitVec.and_self]

/-- A byte replaced by its AND with another has no bit set that was not set before (40_and_a.md R75). -/
theorem byte_store_and_clears (m : Memory) (ea addr : Nat) (v : Byte) :
    (m.store ea (m.byte ea &&& v)).byte addr &&& m.byte addr = (m.store ea (m.byte ea &&& v)).byte addr := by
  by_cases h : addr = ea
  · subst h
    simp [and_and_old]
  · simp [byte_store_other _ _ _ _ h]

/-- No completed instruction sets a bit of A, B, H or L (10_state.md R33). -/
theorem exec_clears_registers {i : Instr} {s t : State} (h : exec i s = .next t) :
    t.a &&& s.a = t.a ∧ t.b &&& s.b = t.b ∧ t.h &&& s.h = t.h ∧ t.l &&& s.l = t.l := by
  rcases exec_cases h with ⟨-, -, rfl⟩ | ⟨nn, -, rfl⟩ | ⟨nn, -, rfl⟩ | ⟨nn, -, rfl⟩ | ⟨nn, -, rfl⟩ |
    ⟨ea, s', nz, -, -, rfl | rfl, -, rfl⟩ <;> simp [and_and_old]

/-! ### The invariant -/

theorem exec_wf {i : Instr} {s t : State} (hs : s.wf) (h : exec i s = .next t) : t.wf := by
  obtain ⟨hpages, -, hmem, htext⟩ := hs
  obtain ⟨⟨-, -, -, hep, hxp, hyp⟩, htxt, hparams⟩ := exec_keeps h
  refine ⟨?_, ?_, ?_, ?_⟩
  · simpa only [State.pagesFit, hep, hxp, hyp, hparams] using hpages
  · rw [exec_pc h, hparams]
    exact Nat.mod_lt _ (Nat.two_pow_pos _)
  · rcases exec_mem h with hm | ⟨ea, v, hw, hm⟩
    · simpa only [State.memFits, hm, hparams] using hmem
    · exact memFits_of_store hmem hw.1.lt hparams hm
  · simpa only [State.textFits, htxt, hparams] using htext

/-! ### SC -/

@[simp] theorem eaHL_stored (s : State) (ea : Nat) (v : Byte) (nz : Bool) (len : Nat) :
    eaHL (stored s ea v nz len) = eaHL s := by simp [eaHL, State.hl]

@[simp] theorem eaBR_stored (s : State) (ea : Nat) (v : Byte) (nz : Bool) (len : Nat) (ll : Byte) :
    eaBR (stored s ea v nz len) ll = eaBR s ll := by simp [eaBR]

theorem storeAddr_useChoice (i : Instr) (s : State) : storeAddr i s.useChoice = storeAddr i s := by cases i <;> rfl

/-- After the store, a memory destination holds what was stored (42_and_mem.md R93). -/
theorem operandValue_dst_stored {i : Instr} {s : State} {ea : Nat} (h : storeAddr i s = some ea) (v : Byte) (nz : Bool)
    (len : Nat) : operandValue i.operands.dst (stored s ea v nz len) = v := by
  cases i <;> cases h <;> simp [operandValue, Instr.operands]

/-- What an instruction other than `AND SC, #nn` leaves in SC: N and Z of the destination's new value over the old flags,
or, with the switch of 42_and_mem.md R94 off, the old SC. -/
theorem exec_sc {i : Instr} {s t : State} (hi : ∀ nn, i ≠ .andSCImm nn) (h : exec i s = .next t) :
    t.sc = nzOf (operandValue i.operands.dst t) s.sc ∨
      (∃ ll nn, i = .andMBRImm ll nn) ∧ s.params.brllImmWritesNZ = false ∧ t.sc = s.sc := by
  rcases exec_cases h with ⟨hdst, -, rfl⟩ | ⟨nn, rfl, rfl⟩ | ⟨nn, rfl, rfl⟩ | ⟨nn, rfl, rfl⟩ | ⟨nn, rfl, -⟩ |
    ⟨ea, s', nz, hea, -, hs', hnz, rfl⟩
  any_goals exact .inl rfl
  · exact .inl (by rw [hdst]; rfl)
  · exact absurd rfl (hi nn)
  · have hea' : storeAddr i s' = some ea := by
      rcases hs' with rfl | rfl
      · exact hea
      · rwa [storeAddr_useChoice]
    have hsc : s'.sc = s.sc := by rcases hs' with rfl | rfl <;> rfl
    rw [operandValue_dst_stored hea', stored_sc, hsc]
    cases nz with
    | true => exact .inl rfl
    | false =>
      rcases hnz with hnz | ⟨hbr, hswitch⟩
      · cases hnz
      · exact .inr ⟨hbr, hswitch.symm, rfl⟩

/-- N and Z follow the result wherever the instruction writes them (10_state.md R22, R23). -/
theorem exec_nzFrom {i : Instr} {s t : State} (hi : ∀ nn, i ≠ .andSCImm nn)
    (hswitch : (∃ ll nn, i = .andMBRImm ll nn) → s.params.brllImmWritesNZ = true) (h : exec i s = .next t) :
    NZFrom (operandValue i.operands.dst t) s t := by
  rcases exec_sc hi h with hsc | ⟨hbr, hoff, -⟩
  · exact nzFrom_of_sc hsc
  · simp [hswitch hbr] at hoff

/-- The six flags that are neither N nor Z are kept (10_state.md R24, R25). -/
theorem exec_keeps_other_flags {i : Instr} {s t : State} (hi : ∀ nn, i ≠ .andSCImm nn) (h : exec i s = .next t)
    {f : Flag} (hn : f ≠ .n) (hz : f ≠ .z) : t.flag f = s.flag f := by
  unfold State.flag
  rcases exec_sc hi h with hsc | ⟨-, -, hsc⟩
  · rw [hsc, nzOf_other _ _ hn hz]
  · rw [hsc]

/-! ### The statements about every step -/

/-- Settles O47: the fields kept, pc reduced, memory kept or stored to inside the space. -/
theorem stepKeepsTheInvariant : Obligations.StepKeepsTheInvariant := by
  intro s t hs h
  obtain ⟨i, -, hexec⟩ := exec_of_step h
  exact exec_wf hs hexec

/-- Settles O46: the reset state is one state, with empty memories. -/
theorem resetMeetsTheInvariant : Obligations.ResetMeetsTheInvariant := by
  unfold Obligations.ResetMeetsTheInvariant
  decide

/-- Settles O13: the bytes at pc are an instruction's, and its meaning advances pc by its length. -/
theorem stepAdvancesByTheLength : Obligations.StepAdvancesByTheLength := by
  intro s t h
  obtain ⟨i, hcode, hexec⟩ := exec_of_step h
  obtain ⟨-, hpos, hle, -⟩ := shape i
  exact ⟨i, hcode, hpos, hle, exec_pc hexec⟩

/-- Settles O31, by what every completed instruction keeps. -/
theorem stepKeepsAddressRegistersAndLaunch : Obligations.StepKeepsAddressRegistersAndLaunch := by
  intro s t h
  obtain ⟨i, -, hexec⟩ := exec_of_step h
  exact exec_keeps hexec

/-- Settles O30: a register or a byte of memory is kept or ANDed. -/
theorem stepOnlyClearsBits : Obligations.StepOnlyClearsBits := by
  intro s t h
  obtain ⟨i, -, hexec⟩ := exec_of_step h
  obtain ⟨ha, hb, hh, hl⟩ := exec_clears_registers hexec
  refine ⟨ha, hb, hh, hl, fun addr => ?_⟩
  rcases exec_mem hexec with hm | ⟨ea, v, -, hm⟩
  · rw [hm, BitVec.and_self]
  · rw [hm, byte_store_and_clears]

/-- Settles O27: SC ends as `setNZ` of the destination's new value leaves it. -/
theorem nAndZFollowTheResult : Obligations.NAndZFollowTheResult :=
  fun _ _ _ hi hswitch h => exec_nzFrom hi hswitch h

/-- Settles O28: none of the six is N or Z. -/
theorem otherFlagsChangeOnlyThroughSC : Obligations.OtherFlagsChangeOnlyThroughSC := by
  intro i s t hi h
  have hkeep : ∀ f, f ≠ .n → f ≠ .z → t.flag f = s.flag f := fun _ => exec_keeps_other_flags hi h
  exact ⟨hkeep .v nofun nofun, hkeep .c nofun nofun, hkeep .i1 nofun nofun, hkeep .i0 nofun nofun,
    hkeep .u nofun nofun, hkeep .d nofun nofun⟩

end Sys2Proof.Machine
end

section
/-! SUPPORT. AND of an immediate into B, L, H and SC, and what a step does not depend on: the old flags, and the page
registers where `PAGED` is false. -/

namespace Sys2Proof.Machine

/-! ### Immediate into a register -/

/-- Settles O21: each of the three meanings is one explicit update. -/
theorem andImmediateIntoBLH : Obligations.AndImmediateIntoBLH := by
  intro s nn
  exact ⟨⟨_, rfl, rfl, nzFrom_of_sc rfl, rfl⟩, ⟨_, rfl, rfl, rfl, nzFrom_of_sc rfl, rfl⟩,
    _, rfl, rfl, rfl, nzFrom_of_sc rfl, rfl⟩

/-- SC as a byte AND is each flag's AND (41_and_reg_imm.md R92). -/
theorem flag_of_sc_and {s t : State} {nn : Byte} (h : t.sc = s.sc &&& nn) (f : Flag) :
    t.flag f = (s.flag f && nn.getLsbD (flagBit f)) := by
  rw [State.flag, h, BitVec.getLsbD_and, State.flag]

/-- Settles O22: SC is ANDed as a byte, flag by flag. -/
theorem andImmediateIntoSC : Obligations.AndImmediateIntoSC := by
  intro s nn
  have hflag := flag_of_sc_and (s := s) (t := (s.withSC (s.sc &&& nn)).advance 2) (nn := nn) rfl
  refine ⟨_, rfl, rfl, rfl, hflag .i1, hflag .i0, hflag .u, hflag .d, hflag .n, hflag .v, hflag .c, hflag .z, ?_⟩
  intro hsc hnn
  have hzero : s.sc &&& nn = 0x00#8 := by rw [hsc, hnn]; decide
  exact ⟨hzero, (hflag .z).trans (by rw [State.flag, ← BitVec.getLsbD_and, hzero]; rfl)⟩

/-! ### The old flags -/

/-- `t'` is `t` but for SC, and has its N and Z. -/
def SameButKeptFlags (t t' : State) : Prop :=
  t'.withSC t.sc = t ∧ t'.flag .n = t.flag .n ∧ t'.flag .z = t.flag .z

/-- An update that ends in `setNZ` carries the old flags into nothing but SC's other six. -/
theorem sameButKeptFlags_setNZ (u : State) (sc v : Byte) (len : Nat) :
    SameButKeptFlags ((u.setNZ v).advance len) (((u.withSC sc).setNZ v).advance len) :=
  ⟨rfl, by simp, by simp⟩

theorem andMemIntoA_withSC {s t : State} {ea len : Nat} (sc : Byte) (h : andMemIntoA s ea len = .next t) :
    ∃ t', andMemIntoA (s.withSC sc) ea len = .next t' ∧ SameButKeptFlags t t' := by
  obtain ⟨hr, rfl⟩ := andMemIntoA_eq_next.1 h
  exact ⟨_, andMemIntoA_eq_next.2 ⟨hr, rfl⟩, sameButKeptFlags_setNZ (s.withA _) sc _ len⟩

/-- A memory destination's update carries the old flags into SC only; with `setNZ`, not into N and Z. -/
theorem stored_withSC (s : State) (sc : Byte) (ea : Nat) (v : Byte) (nz : Bool) (len : Nat) :
    (stored (s.withSC sc) ea v nz len).withSC (stored s ea v nz len).sc = stored s ea v nz len ∧
      (nz = true → SameButKeptFlags (stored s ea v nz len) (stored (s.withSC sc) ea v nz len)) := by
  cases nz with
  | true => exact ⟨rfl, fun _ => sameButKeptFlags_setNZ (s.withMem _) sc v len⟩
  | false => exact ⟨rfl, fun h => nomatch h⟩

theorem andIntoMem_withSC {s t : State} {ea len : Nat} {src : Byte} {nz : Bool} (sc : Byte)
    (h : andIntoMem s ea src nz len = .next t) :
    ∃ t', andIntoMem (s.withSC sc) ea src nz len = .next t' ∧ t'.withSC t.sc = t ∧
      (nz = true → SameButKeptFlags t t') := by
  obtain ⟨hw, rfl⟩ := andIntoMem_eq_next.1 h
  exact ⟨_, andIntoMem_eq_next.2 ⟨hw, rfl⟩, stored_withSC s sc ea _ nz len⟩

theorem andMemIntoMem_withSC {s t : State} {dst src len : Nat} (sc : Byte) (h : andMemIntoMem s dst src len = .next t) :
    ∃ t', andMemIntoMem (s.withSC sc) dst src len = .next t' ∧ SameButKeptFlags t t' := by
  obtain ⟨hr, hw, rfl⟩ := andMemIntoMem_eq_next.1 h
  exact ⟨_, andMemIntoMem_eq_next.2 ⟨hr, hw, rfl⟩, (stored_withSC s.useChoice sc dst _ true len).2 rfl⟩

/-- An encoding that always writes N and Z gives the same state but for the kept flags (10_state.md R25). -/
theorem exec_withSC {i : Instr} {s t : State} (sc : Byte) (hsc : ∀ nn, i ≠ .andSCImm nn)
    (hbr : ∀ ll nn, i ≠ .andMBRImm ll nn) (h : exec i s = .next t) :
    ∃ t', exec i (s.withSC sc) = .next t' ∧ SameButKeptFlags t t' := by
  cases i
  case andSCImm nn => exact absurd rfl (hsc nn)
  case andMBRImm ll nn => exact absurd rfl (hbr ll nn)
  case andAA | andAB | andAImm => cases h; exact ⟨_, rfl, sameButKeptFlags_setNZ (s.withA _) sc _ _⟩
  case andBImm => cases h; exact ⟨_, rfl, sameButKeptFlags_setNZ (s.withB _) sc _ _⟩
  case andLImm => cases h; exact ⟨_, rfl, sameButKeptFlags_setNZ (s.withL _) sc _ _⟩
  case andHImm => cases h; exact ⟨_, rfl, sameButKeptFlags_setNZ (s.withH _) sc _ _⟩
  case andMHLMIX | andMHLMIY => exact andMemIntoMem_withSC sc h
  case andMHLA | andMHLImm =>
    obtain ⟨t', ht', -, hsame⟩ := andIntoMem_withSC sc h
    exact ⟨t', ht', hsame rfl⟩
  all_goals exact andMemIntoA_withSC sc h

/-- Settles O29: only `AND [BR:ll], #nn` may leave N and Z as they were, and then its switch says so. -/
theorem flagsDoNotFeedTheResult : Obligations.FlagsDoNotFeedTheResult := by
  intro i s t sc hi h
  by_cases hbr : ∃ ll nn, i = .andMBRImm ll nn
  · obtain ⟨ll, nn, rfl⟩ := hbr
    obtain ⟨t', ht', hsame, hflags⟩ := andIntoMem_withSC sc h
    exact ⟨t', ht', hsame, fun hswitch => (hflags (hswitch ⟨ll, nn, rfl⟩)).2⟩
  · obtain ⟨t', ht', hsame, hflags⟩ := exec_withSC sc hi (fun ll nn heq => hbr ⟨ll, nn, heq⟩) h
    exact ⟨t', ht', hsame, fun _ => hflags⟩

/-! ### The page registers, unpaged -/

/-- `s` with the page registers holding these values. -/
def State.withPages (s : State) (ep xp yp : Nat) : State := { s with ep := ep, xp := xp, yp := yp }

/-- An outcome with `f` applied to its next state, if it has one. -/
def mapNext (f : State → State) (o : Outcome) : Outcome := andThen o fun t => .next (f t)

/-- `mapNext` passes through a first part that does not depend on the change. -/
theorem andThen_eq_mapNext {α : Type} {o : Host.Outcome α Fault Refusal} {f : State → State} {g g' : α → Outcome}
    (h : ∀ x, g' x = mapNext f (g x)) : andThen o g' = mapNext f (andThen o g) := by
  cases o
  case next x => exact h x
  all_goals rfl

/-- Unpaged addresses are equal whatever the page registers hold (20_memory.md R36). -/
theorem physAddr_page_irrelevant {p : Params} (h : p.paged = false) {page page' : Nat} {off : Offset} :
    physAddr p page' off = physAddr p page off := by
  rw [physAddr_unpaged h, physAddr_unpaged h]

section Pages
variable {s : State} {ep xp yp : Nat}

theorem andMemIntoA_withPages {ea ea' len : Nat} (hea : ea' = ea) :
    andMemIntoA (s.withPages ep xp yp) ea' len = mapNext (·.withPages ep xp yp) (andMemIntoA s ea len) := by
  subst hea
  exact andThen_eq_mapNext (o := memRead s ea') fun _ => rfl

theorem memWrite_withPages (ea : Nat) (v : Byte) :
    memWrite (s.withPages ep xp yp) ea v = mapNext (·.withPages ep xp yp) (memWrite s ea v) := by
  refine andThen_eq_mapNext (o := checkAccess s.params ea) fun _ => ?_
  change (if codeRegion s.params ea = true then _ else _) = mapNext _ (if codeRegion s.params ea = true then _ else _)
  split_ifs <;> rfl

theorem storeResult_withPages (ea : Nat) (v : Byte) (nz : Bool) (len : Nat) :
    storeResult (s.withPages ep xp yp) ea v nz len = mapNext (·.withPages ep xp yp) (storeResult s ea v nz len) := by
  unfold storeResult
  rw [memWrite_withPages]
  cases memWrite s ea v <;> cases nz <;> rfl

theorem andIntoMem_withPages {ea ea' len : Nat} {src : Byte} {nz : Bool} (hea : ea' = ea) :
    andIntoMem (s.withPages ep xp yp) ea' src nz len =
      mapNext (·.withPages ep xp yp) (andIntoMem s ea src nz len) := by
  subst hea
  exact andThen_eq_mapNext (o := memRead s ea') fun _ => storeResult_withPages ea' _ nz len

theorem andMemIntoMem_withPages {dst dst' src src' len : Nat} (hdst : dst' = dst) (hsrc : src' = src) :
    andMemIntoMem (s.withPages ep xp yp) dst' src' len =
      mapNext (·.withPages ep xp yp) (andMemIntoMem s dst src len) := by
  subst hdst hsrc
  exact andThen_eq_mapNext (o := readPair s src' dst') fun _ =>
    storeResult_withPages (s := s.useChoice) dst' _ true len

/-- With `PAGED` false a meaning commutes with any change of the page registers (decision D26). -/
theorem exec_withPages (h : s.params.paged = false) (i : Instr) :
    exec i (s.withPages ep xp yp) = mapNext (·.withPages ep xp yp) (exec i s) := by
  have hpage {page page' : Nat} {off : Offset} : physAddr s.params page' off = physAddr s.params page off :=
    physAddr_page_irrelevant h
  cases i
  case andAA | andAB | andAImm | andBImm | andLImm | andHImm | andSCImm => rfl
  case andMBRImm | andMHLA | andMHLImm => exact andIntoMem_withPages hpage
  case andMHLMIX | andMHLMIY => exact andMemIntoMem_withPages hpage hpage
  all_goals exact andMemIntoA_withPages hpage

theorem step_withPages (h : s.params.paged = false) :
    step (s.withPages ep xp yp) = mapNext (·.withPages ep xp yp) (step s) := by
  have hwindow : fetchWindow (s.withPages ep xp yp) = fetchWindow s := fetchRun_congr rfl rfl _ _
  unfold step
  rw [hwindow]
  cases decode (fetchWindow s)
  case instr i => exact exec_withPages h i
  all_goals rfl

end Pages

/-- Settles O41: the step commutes with the change of the page registers. -/
theorem unpagedStepIgnoresPageRegisters : Obligations.UnpagedStepIgnoresPageRegisters := by
  intro s ep xp yp h
  have hstep : step { s with ep := ep, xp := xp, yp := yp } = mapNext (·.withPages ep xp yp) (step s) :=
    step_withPages h
  cases hs : step s <;> simp only [hstep, hs] <;> rfl

end Sys2Proof.Machine
end

section
/-! SUPPORT. The instruction stream byte by byte (20_memory.md R46) and the physical and effective addresses as numbers
(R35 to R43). -/

namespace Sys2Proof.Machine

/-! ### Instruction bytes at pc -/

section Stream
variable {s : State} {i : Instr} {b0 b1 b2 : Byte}

theorem step_of_one_byte (henc : encode i = [b0]) (h0 : fetch s s.pc = some b0) : step s = exec i s := by
  refine stepRunsDecodedInstruction i s fun k hk => ?_
  rw [henc] at hk ⊢
  match k, hk with
  | 0, _ => exact h0

theorem step_of_two_bytes (henc : encode i = [b0, b1]) (h0 : fetch s s.pc = some b0)
    (h1 : fetch s (s.pc + 1) = some b1) : step s = exec i s := by
  refine stepRunsDecodedInstruction i s fun k hk => ?_
  rw [henc] at hk ⊢
  match k, hk with
  | 0, _ => exact h0
  | 1, _ => exact h1

theorem step_of_three_bytes (henc : encode i = [b0, b1, b2]) (h0 : fetch s s.pc = some b0)
    (h1 : fetch s (s.pc + 1) = some b1) (h2 : fetch s (s.pc + 2) = some b2) : step s = exec i s := by
  refine stepRunsDecodedInstruction i s fun k hk => ?_
  rw [henc] at hk ⊢
  match k, hk with
  | 0, _ => exact h0
  | 1, _ => exact h1
  | 2, _ => exact h2

end Stream

/-- Settles O15: each form's bytes at pc are its encoding, of one, two or three bytes. -/
theorem instructionStreamByteOrder : Obligations.InstructionStreamByteOrder := by
  intro s x y
  refine ⟨step_of_one_byte rfl, step_of_one_byte rfl, step_of_one_byte rfl, step_of_one_byte rfl,
    step_of_one_byte rfl, fun h1 => ?_, fun h1 h2 => ?_, fun h0 => ?_⟩
  · exact ⟨(step_of_two_bytes rfl · h1), (step_of_two_bytes rfl · h1), (step_of_two_bytes rfl · h1)⟩
  · exact ⟨fun h0 => ⟨step_of_three_bytes rfl h0 h1 h2, rfl⟩, fun h0 => ⟨step_of_three_bytes rfl h0 h1 h2, rfl, rfl⟩⟩
  · refine ⟨step_of_two_bytes rfl h0, step_of_two_bytes rfl h0, step_of_two_bytes rfl h0, step_of_two_bytes rfl h0,
      step_of_two_bytes rfl h0, fun h2 => ?_⟩
    exact ⟨(step_of_three_bytes rfl h0 · h2), (step_of_three_bytes rfl h0 · h2), (step_of_three_bytes rfl h0 · h2),
      (step_of_three_bytes rfl h0 · h2), (step_of_three_bytes rfl h0 · h2), (step_of_three_bytes rfl h0 · h2)⟩

/-! ### Addresses as numbers -/

/-- The page register's part of an address, nothing when unpaged, plus the offset (20_memory.md R36). -/
theorem physAddr_eq_page_add {p : Params} {page : Nat} (hp : page < 2 ^ p.pageBits) (off : Offset) :
    physAddr p page off = (if p.paged then page * 65536 else 0) + off.toNat := by
  cases h : p.paged with
  | true => exact physAddr_paged h hp off
  | false => simp [physAddr_unpaged h]

/-- A paged address tells its page and its offset apart (20_memory.md R36). -/
theorem physAddr_inj {p : Params} (h : p.paged = true) {page page' : Nat} (hp : page < 2 ^ p.pageBits)
    (hp' : page' < 2 ^ p.pageBits) {off off' : Offset} :
    physAddr p page off = physAddr p page' off' ↔ page = page' ∧ off = off' := by
  rw [physAddr_paged h hp, physAddr_paged h hp', ← BitVec.toNat_inj]
  have := off.isLt
  have := off'.isLt
  omega

/-- Settles O38: the address as a number, inside the physical space, with the offset below 65536. -/
theorem physicalAddressIsPageThenOffset : Obligations.PhysicalAddressIsPageThenOffset := by
  intro p page page' off off' hp hp'
  refine ⟨fun h => ⟨physAddr_paged h hp off, ?_, physAddr_inj h hp hp'⟩, fun h => ⟨physAddr_unpaged h page off, ?_⟩⟩
  · simpa [physBits, h] using physAddr_lt p page off
  · simpa [physBits, h] using physAddr_lt p page off

/-- The address of a joined offset: the page's part, the high byte times 256, the low byte (20_memory.md R38 to R40). -/
theorem physAddr_join {p : Params} {page : Nat} (hp : page < 2 ^ p.pageBits) (hi lo : Byte) :
    physAddr p page (join hi lo) = (if p.paged then page * 65536 else 0) + hi.toNat * 256 + lo.toNat := by
  rw [physAddr_eq_page_add hp, join_toNat, Nat.add_assoc]

/-- Settles O39: HL, BR ∥ ll and hh ∥ ll are joined offsets, IX and IY plain ones. -/
theorem effectiveAddressesWithoutSum : Obligations.EffectiveAddressesWithoutSum := by
  rintro s ll hh ⟨hep, hxp, hyp⟩
  exact ⟨physAddr_join hep s.h s.l, physAddr_join hep s.br ll, physAddr_join hep hh ll,
    physAddr_eq_page_add hxp s.ix, physAddr_eq_page_add hyp s.iy⟩

/-- The address of a signed sum: the page's part, which the sum does not touch, and the sum modulo 2^16 (20_memory.md
R42, R43). -/
theorem physAddr_add_sext16 {p : Params} {page : Nat} (hp : page < 2 ^ p.pageBits) (x : Offset) (d : Byte) :
    (physAddr p page (x + sext16 d) : Int) =
      (if p.paged then (page : Int) * 65536 else 0) + (x.toNat + d.toInt) % 65536 := by
  rw [physAddr_eq_page_add hp, Nat.cast_add, offset_add_sext16]
  push_cast
  rfl

/-- Settles O40: all four are an index register plus a sign-extended byte, in that register's page. -/
theorem effectiveAddressesOfSignedSums : Obligations.EffectiveAddressesOfSignedSums := by
  rintro s dd ⟨-, hxp, hyp⟩
  exact ⟨physAddr_add_sext16 hxp s.ix dd, physAddr_add_sext16 hyp s.iy dd, physAddr_add_sext16 hxp s.ix s.l,
    physAddr_add_sext16 hyp s.iy s.l⟩

end Sys2Proof.Machine
end

section
/-! SUPPORT. The data accesses of an instruction (20_memory.md R49, R50): which reads and writes its list holds, how the
first of them that is not admitted stops it (R52, R58), and that their open order shows in no completed step. -/

namespace Sys2Proof.Machine

/-! ### The list of accesses -/

/-- The reads of an instruction in their order (20_memory.md R50). -/
def accessReads (i : Instr) (s : State) : List Access :=
  if Config.freeReadOrder s.choices then operandReads i.operands.src s ++ operandReads i.operands.dst s
    else operandReads i.operands.dst s ++ operandReads i.operands.src s

theorem accesses_eq (i : Instr) (s : State) : accesses i s = accessReads i s ++ operandWrites i.operands.dst s := rfl

theorem mem_operandReads {o : Operand} {s : State} {acc : Access} :
    acc ∈ operandReads o s ↔ ∃ addr, operandAddr o s = some addr ∧ Access.read addr = acc := by
  simp [operandReads]

/-- The order of the reads does not matter to whether one is among them. -/
theorem mem_accessReads {i : Instr} {s : State} {acc : Access} :
    acc ∈ accessReads i s ↔ acc ∈ operandReads i.operands.src s ∨ acc ∈ operandReads i.operands.dst s := by
  unfold accessReads
  split_ifs <;> simp [or_comm]

theorem write_notMem_accessReads (i : Instr) (s : State) (addr : Nat) : Access.write addr ∉ accessReads i s := by
  simp [mem_accessReads, mem_operandReads]

/-- The destination's address is the one the meaning stores to (42_and_mem.md R93). -/
theorem operandAddr_dst (i : Instr) (s : State) : operandAddr i.operands.dst s = storeAddr i s := by
  cases i <;> rfl

/-- The writes of an instruction: one where it stores, none elsewhere (20_memory.md R45). -/
theorem operandWrites_dst (i : Instr) (s : State) :
    operandWrites i.operands.dst s = (storeAddr i s).toList.map .write := by
  rw [operandWrites, operandAddr_dst]

/-- An instruction that stores nothing keeps data memory (20_memory.md R45). -/
theorem exec_keepsMemory {i : Instr} {s t : State} (hea : storeAddr i s = none) (h : exec i s = .next t) :
    KeepsMemory s t := by
  rcases exec_cases h with ⟨-, -, rfl⟩ | ⟨nn, -, rfl⟩ | ⟨nn, -, rfl⟩ | ⟨nn, -, rfl⟩ | ⟨nn, -, rfl⟩ |
    ⟨ea, s', nz, hstore, -⟩
  case inr.inr.inr.inr.inr => simp [hea] at hstore
  all_goals exact fun _ => rfl

/-- Settles O36: a read after the write; and the list of accesses is the reads and then the destination's write. -/
theorem memWriteChangesOneByte : Obligations.MemWriteChangesOneByte := by
  refine ⟨fun s t addr v h => ?_, fun i s t hea h => ⟨exec_keepsMemory hea h, fun addr => ?_⟩, fun i s ea hea => ?_⟩
  · obtain ⟨-, rfl⟩ := memWrite_eq_next.1 h
    exact ⟨byte_store_same s.mem addr v, fun other hne => byte_store_other s.mem addr other v hne⟩
  · rw [accesses_eq, operandWrites_dst, hea]
    simpa using write_notMem_accessReads i s addr
  · refine ⟨accessReads i s, ?_, ?_, write_notMem_accessReads i s⟩
    · rw [accesses_eq, operandWrites_dst, hea]
      rfl
    · exact mem_accessReads.2 (.inr (mem_operandReads.2 ⟨ea, operandAddr_dst i s ▸ hea, rfl⟩))

/-! ### Counts -/

/-- Is the access a read. -/
def Access.isRead (acc : Access) : Bool := acc matches .read _

/-- Is the access a write. -/
def Access.isWrite (acc : Access) : Bool := acc matches .write _

theorem countP_isRead_accesses (i : Instr) (s : State) :
    (accesses i s).countP Access.isRead =
      (operandAddr i.operands.src s).toList.length + (operandAddr i.operands.dst s).toList.length := by
  have hread : Access.isRead ∘ Access.read = fun _ => true := rfl
  have hwrite : Access.isRead ∘ Access.write = fun _ => false := rfl
  rw [accesses_eq, accessReads]
  split_ifs <;> simp [operandReads, operandWrites, hread, hwrite, Nat.add_comm]

theorem countP_isWrite_accesses (i : Instr) (s : State) :
    (accesses i s).countP Access.isWrite = (operandAddr i.operands.dst s).toList.length := by
  have hread : Access.isWrite ∘ Access.read = fun _ => false := rfl
  have hwrite : Access.isWrite ∘ Access.write = fun _ => true := rfl
  rw [accesses_eq, accessReads]
  split_ifs <;> simp [operandReads, operandWrites, hread, hwrite]

/-- Settles O37: a read per bracketed operand and a write per bracketed destination, held to the table row by row. -/
theorem accessesMatchTheTable : Obligations.AccessesMatchTheTable := by
  intro i s
  refine ⟨(countP_isRead_accesses i s).trans ?_, (countP_isWrite_accesses i s).trans ?_⟩ <;> cases i <;> rfl

/-! ### The first access that stops -/

/-- Why an outcome is no next value, if it is none. -/
def stopOf {α : Type} (o : Host.Outcome α Fault Refusal) : Option (Fault ⊕ Refusal) :=
  match o with
  | .next _ => none
  | .fault e => some (.inl e)
  | .refused r => some (.inr r)

/-- A sequence stops as its first part does, and where that does not stop, as its second. -/
theorem stopOf_andThen {α β : Type} {o : Host.Outcome α Fault Refusal} {f : α → Host.Outcome β Fault Refusal}
    {stop : Option (Fault ⊕ Refusal)} (h : ∀ x, stopOf (f x) = stop) : stopOf (andThen o f) = (stopOf o).or stop := by
  cases o with
  | next x => exact h x
  | fault e => rfl
  | refused r => rfl

theorem stopOf_checkAccess (p : Params) (addr : Nat) : stopOf (checkAccess p addr) = accessStop p (.read addr) := by
  dsimp only [checkAccess, accessStop]
  cases mapped p addr
  · rfl
  · cases sideEffect p addr <;> rfl

/-- A write stops as a read at its address, and where that does not, in the code region (20_memory.md R52, R58). -/
theorem accessStop_write (p : Params) (addr : Nat) :
    accessStop p (.write addr) =
      (accessStop p (.read addr)).or (if codeRegion p addr then some (.inr (.codeWrite addr)) else none) := by
  dsimp only [accessStop]
  cases mapped p addr
  · rfl
  · cases sideEffect p addr <;> rfl

theorem stopOf_memRead (s : State) (addr : Nat) : stopOf (memRead s addr) = accessStop s.params (.read addr) := by
  rw [memRead, stopOf_andThen (stop := none) fun _ => rfl, stopOf_checkAccess, Option.or_none]

theorem stopOf_memWrite (s : State) (addr : Nat) (v : Byte) :
    stopOf (memWrite s addr v) = accessStop s.params (.write addr) := by
  rw [memWrite, accessStop_write, ← stopOf_checkAccess]
  refine stopOf_andThen fun _ => ?_
  split_ifs <;> rfl

theorem stopOf_andMemIntoA (s : State) (ea len : Nat) :
    stopOf (andMemIntoA s ea len) = accessStop s.params (.read ea) := by
  rw [andMemIntoA, stopOf_andThen (stop := none) fun _ => rfl, stopOf_memRead, Option.or_none]

theorem stopOf_storeResult (s : State) (ea : Nat) (v : Byte) (nz : Bool) (len : Nat) :
    stopOf (storeResult s ea v nz len) = accessStop s.params (.write ea) := by
  rw [storeResult, stopOf_andThen (stop := none) fun _ => rfl, stopOf_memWrite, Option.or_none]

theorem stopOf_andIntoMem (s : State) (ea : Nat) (src : Byte) (nz : Bool) (len : Nat) :
    stopOf (andIntoMem s ea src nz len) =
      (accessStop s.params (.read ea)).or (accessStop s.params (.write ea)) := by
  rw [andIntoMem, stopOf_andThen fun _ => stopOf_storeResult .., stopOf_memRead]

/-- Two reads stop as the one performed first does, and where it does not stop, as the other (20_memory.md R50). -/
theorem stopOf_readPair (s : State) (src dst : Nat) :
    stopOf (readPair s src dst) =
      if Config.freeReadOrder s.choices then (accessStop s.params (.read src)).or (accessStop s.params (.read dst))
      else (accessStop s.params (.read dst)).or (accessStop s.params (.read src)) := by
  have hthen (first second : Nat) (f : Byte → Byte → Byte × Byte) :
      stopOf (andThen (memRead s first) fun v => andThen (memRead s second) fun m => .next (f v m)) =
        (accessStop s.params (.read first)).or (accessStop s.params (.read second)) := by
    have hsecond (v : Byte) : stopOf (andThen (memRead s second) fun m => .next (f v m)) =
        accessStop s.params (.read second) := by
      rw [stopOf_andThen (stop := none) fun _ => rfl, stopOf_memRead, Option.or_none]
    rw [stopOf_andThen hsecond, stopOf_memRead]
  rw [readPair_eq]
  split_ifs
  · exact hthen src dst fun v m => (v, m)
  · exact hthen dst src fun m v => (v, m)

theorem stopOf_andMemIntoMem (s : State) (dst src len : Nat) :
    stopOf (andMemIntoMem s dst src len) =
      (stopOf (readPair s src dst)).or (accessStop s.params (.write dst)) := by
  rw [andMemIntoMem, stopOf_andThen fun _ => stopOf_storeResult .., State.useChoice_params]

theorem findSome?_operandReads {α : Type} (f : Access → Option α) (o : Operand) (s : State) :
    (operandReads o s).findSome? f = (operandAddr o s).bind fun addr => f (.read addr) := by
  unfold operandReads
  cases operandAddr o s <;> simp

theorem findSome?_operandWrites {α : Type} (f : Access → Option α) (o : Operand) (s : State) :
    (operandWrites o s).findSome? f = (operandAddr o s).bind fun addr => f (.write addr) := by
  unfold operandWrites
  cases operandAddr o s <;> simp

/-- A search through the accesses: the two operands' reads in the open order, then the destination's write. -/
theorem findSome?_accesses {α : Type} (f : Access → Option α) (i : Instr) (s : State) :
    (accesses i s).findSome? f =
      (if Config.freeReadOrder s.choices then
        ((operandAddr i.operands.src s).bind fun addr => f (.read addr)).or
          ((operandAddr i.operands.dst s).bind fun addr => f (.read addr))
      else ((operandAddr i.operands.dst s).bind fun addr => f (.read addr)).or
          ((operandAddr i.operands.src s).bind fun addr => f (.read addr))).or
        ((operandAddr i.operands.dst s).bind fun addr => f (.write addr)) := by
  rw [accesses_eq, accessReads, List.findSome?_append, findSome?_operandWrites]
  split_ifs <;> rw [List.findSome?_append, findSome?_operandReads, findSome?_operandReads]

/-- An instruction stops as the first access of its list that is not admitted does (20_memory.md R50, R52, R58). -/
theorem stopOf_exec (i : Instr) (s : State) :
    stopOf (exec i s) = (accesses i s).findSome? (accessStop s.params) := by
  rw [findSome?_accesses]
  cases i
  case andAA | andAB | andAImm | andBImm | andLImm | andHImm | andSCImm =>
    exact Eq.trans (b := none) rfl (by simp [Instr.operands, operandAddr])
  case andMBRImm | andMHLA | andMHLImm =>
    exact (stopOf_andIntoMem ..).trans (by simp [Instr.operands, operandAddr])
  case andMHLMIX | andMHLMIY => exact (stopOf_andMemIntoMem ..).trans (by rw [stopOf_readPair]; rfl)
  all_goals exact (stopOf_andMemIntoA ..).trans (by simp [Instr.operands, operandAddr])

/-- Settles O12: `exec` read by why it stops. -/
theorem firstStoppedAccessDecides : Obligations.FirstStoppedAccessDecides := by
  intro i s
  rw [← stopOf_exec]
  cases h : exec i s with
  | next t => exact ⟨t, rfl⟩
  | fault e => rfl
  | refused r => rfl

/-! ### The open order -/

/-- `s` with this many open choices used up (log 10). -/
def State.withChoices (s : State) (n : Nat) : State := { s with choices := n }

theorem andMemIntoA_withChoices {s t : State} {ea len : Nat} (n : Nat) (h : andMemIntoA s ea len = .next t) :
    ∃ t', andMemIntoA (s.withChoices n) ea len = .next t' ∧ t'.withChoices t.choices = t := by
  obtain ⟨hr, rfl⟩ := andMemIntoA_eq_next.1 h
  exact ⟨_, andMemIntoA_eq_next.2 ⟨hr, rfl⟩, rfl⟩

theorem andIntoMem_withChoices {s t : State} {ea len : Nat} {src : Byte} {nz : Bool} (n : Nat)
    (h : andIntoMem s ea src nz len = .next t) :
    ∃ t', andIntoMem (s.withChoices n) ea src nz len = .next t' ∧ t'.withChoices t.choices = t := by
  obtain ⟨hw, rfl⟩ := andIntoMem_eq_next.1 h
  refine ⟨_, andIntoMem_eq_next.2 ⟨hw, rfl⟩, ?_⟩
  cases nz <;> rfl

/-- Both reads are admitted whichever is first, and their bytes are the same (20_memory.md R50). -/
theorem andMemIntoMem_withChoices {s t : State} {dst src len : Nat} (n : Nat)
    (h : andMemIntoMem s dst src len = .next t) :
    ∃ t', andMemIntoMem (s.withChoices n) dst src len = .next t' ∧ t'.withChoices t.choices = t := by
  obtain ⟨hr, hw, rfl⟩ := andMemIntoMem_eq_next.1 h
  exact ⟨_, andMemIntoMem_eq_next.2 ⟨hr, hw, rfl⟩, rfl⟩

/-- Settles O42: only the two-read forms use a choice, and what they read does not depend on it. -/
theorem readOrderDoesNotShow : Obligations.ReadOrderDoesNotShow := by
  intro i s t n h
  cases i
  case andAA | andAB | andAImm | andBImm | andLImm | andHImm | andSCImm => cases h; exact ⟨_, rfl, rfl⟩
  case andMBRImm | andMHLA | andMHLImm => exact andIntoMem_withChoices n h
  case andMHLMIX | andMHLMIY => exact andMemIntoMem_withChoices n h
  all_goals exact andMemIntoA_withChoices n h

/-! ### The same byte twice -/

/-- A byte ANDed with itself is stored unchanged and sets N and Z (42_and_mem.md R97, R98). -/
theorem andMemIntoMem_same_byte {s : State} {ea : Nat} (hw : Writable s ea) (len : Nat) :
    ∃ t, andMemIntoMem s ea ea len = .next t ∧ KeepsMemory s t ∧ NZFrom (s.mem.byte ea) s t := by
  refine ⟨_, andMemIntoMem_eq_next.2 ⟨hw.1, hw, rfl⟩, fun addr => ?_, ?_⟩
  · rw [stored_mem, State.useChoice_mem, BitVec.and_self, byte_store]
    split_ifs with h
    · rw [h]
    · rfl
  · exact nzFrom_of_sc (by rw [BitVec.and_self]; rfl)

/-- Settles O43: both forms read source and destination at [HL]. -/
theorem sameByteAsSourceAndDestination : Obligations.SameByteAsSourceAndDestination := by
  intro s hw
  have hsame {src : Nat} (h : src = eaHL s) : ∃ t, andMemIntoMem s (eaHL s) src 2 = .next t ∧ KeepsMemory s t ∧
      NZFrom (s.mem.byte (eaHL s)) s t := h ▸ andMemIntoMem_same_byte hw 2
  exact ⟨hsame, hsame⟩

end Sys2Proof.Machine
end

section
/-! SUPPORT. The encoding as a whole: where the decoder says "not shown" (30_encoding.md R68), the words of the opcode
table (R74), the assembler against the operands an instruction is written with (R72), and the statements about them. -/

namespace Sys2Proof.Machine

/-! ### Outside the opcode maps -/

/-- The first bytes the decoder knows: the first-byte map and CEH (30_encoding.md R61). -/
def firstOpcodes : List Byte :=
  [0x20#8, 0x21#8, 0x22#8, 0x23#8, 0x24#8, 0x25#8, 0x26#8, 0x27#8, 0x9C#8, 0xD8#8, 0xCE#8]

/-- The second bytes the decoder knows after CEH (30_encoding.md R62). -/
def secondOpcodes : List Byte :=
  [0x20#8, 0x21#8, 0x22#8, 0x23#8, 0x24#8, 0x25#8, 0x26#8, 0x27#8, 0xB0#8, 0xB1#8, 0xB2#8]

@[simp] theorem decodeOne_ne_notShown (k : Nat) (f : Byte → Instr) (ops opcode : List Byte) :
    decodeOne k f ops ≠ .notShown opcode := by
  cases ops <;> simp [decodeOne]

@[simp] theorem decodeTwo_ne_notShown (k : Nat) (f : Byte → Byte → Instr) (ops opcode : List Byte) :
    decodeTwo k f ops ≠ .notShown opcode := by
  rcases ops with _ | ⟨x, _ | ⟨y, rest⟩⟩ <;> simp [decodeTwo]

theorem decodeAfterCE_of_notMem {b1 : Byte} (h : b1 ∉ secondOpcodes) (rest : List Byte) :
    decodeAfterCE (b1 :: rest) = .notShown [0xCE#8, b1] := by
  simp only [decodeAfterCE]
  split
  case h_12 => rfl
  all_goals exact absurd (by decide) h

theorem decode_of_notMem {b0 : Byte} (h : b0 ∉ firstOpcodes) (rest : List Byte) :
    decode (b0 :: rest) = .notShown [b0] := by
  simp only [decode]
  split
  case h_12 => rfl
  all_goals exact absurd (by decide) h

theorem notMem_of_decodeAfterCE {ops opcode : List Byte} (h : decodeAfterCE ops = .notShown opcode) :
    ∃ b1 rest, ops = b1 :: rest ∧ opcode = [0xCE#8, b1] ∧ b1 ∉ secondOpcodes := by
  unfold decodeAfterCE at h
  split at h
  · cases h
  · split at h
    case h_12 => cases h; exact ⟨_, _, rfl, rfl, by simp_all [secondOpcodes]⟩
    all_goals simp at h

theorem notMem_of_decode {bytes opcode : List Byte} (h : decode bytes = .notShown opcode) :
    (∃ b0 rest, bytes = b0 :: rest ∧ opcode = [b0] ∧ b0 ∉ firstOpcodes) ∨
      ∃ b1 rest, bytes = 0xCE#8 :: b1 :: rest ∧ opcode = [0xCE#8, b1] ∧ b1 ∉ secondOpcodes := by
  unfold decode at h
  split at h
  · cases h
  · split at h
    case h_11 =>
      obtain ⟨b1, rest, rfl, hopcode, hb1⟩ := notMem_of_decodeAfterCE h
      exact .inr ⟨b1, rest, rfl, hopcode, hb1⟩
    case h_12 => cases h; exact .inl ⟨_, _, rfl, rfl, by simp_all [firstOpcodes]⟩
    all_goals simp at h

theorem step_of_notShown {s : State} {opcode : List Byte} (h : decode (fetchWindow s) = .notShown opcode) :
    step s = .refused (.notShown opcode) := by
  simp [step, h]

/-! ### The words of the opcode table -/

/-- A word whose bytes are an instruction's encoding decodes to it, zero bytes after them or not (30_encoding.md R74). -/
theorem decodeTableWord_of_tableBytes {nbits w : Nat} {i : Instr} (h : tableBytes nbits w = encode i) :
    decodeTableWord nbits w = some i := by
  rw [decodeTableWord_eq_some, paddedTableBytes, h]
  exact decode_encode_append i _

theorem decodeTableWord_of_notShown {nbits w : Nat} {opcode : List Byte}
    (h : decode (paddedTableBytes nbits w) = .notShown opcode) : decodeTableWord nbits w = none := by
  simp [decodeTableWord, h]

/-! ### The assembler -/

/-- What the assembler can answer: three kinds of destination have rows, each with its own sources, and the other
destinations have none (30_encoding.md R72). -/
theorem assemble_cases (p : AsmPair) :
    (∃ i, assemble p = some i ∧ i.operands = p) ∨ assemble p = none ∧ p.wellFormed = false := by
  obtain ⟨dst, src⟩ := p
  cases dst with
  | a =>
    cases src with
    | h | l | sc => exact .inr ⟨rfl, rfl⟩
    | _ => exact .inl ⟨_, rfl, rfl⟩
  | mHL =>
    cases src with
    | a | imm nn | mIX | mIY => exact .inl ⟨_, rfl, rfl⟩
    | _ => exact .inr ⟨rfl, rfl⟩
  | b | h | l | sc | mBR ll =>
    cases src with
    | imm nn => exact .inl ⟨_, rfl, rfl⟩
    | _ => exact .inr ⟨rfl, rfl⟩
  | _ => cases src <;> exact .inr ⟨rfl, rfl⟩

theorem assemble_eq_some {p : AsmPair} {i : Instr} : assemble p = some i ↔ i.operands = p := by
  constructor
  · intro h
    rcases assemble_cases p with ⟨j, hj, hp⟩ | ⟨hnone, -⟩
    · obtain rfl : j = i := by simpa [hj] using h
      exact hp
    · simp [hnone] at h
  · rintro rfl
    obtain ⟨-, -, -, -, hasm⟩ := shape i
    exact hasm

theorem exists_assemble_of_wellFormed {p : AsmPair} (h : p.wellFormed = true) : ∃ i, assemble p = some i := by
  rcases assemble_cases p with ⟨i, hi, -⟩ | ⟨-, hwf⟩
  · exact ⟨i, hi⟩
  · simp [hwf] at h

/-! ### The statements about the encoding -/

/-- Settles O1: an encoding is read back whatever follows, and nothing else is read as an instruction. -/
theorem decodeAndEncodeAgree : Obligations.DecodeAndEncodeAgree := by
  refine ⟨fun i rest _ => decode_encode_append i rest, fun bytes i h => ⟨?_, encode_append_of_decode h⟩⟩
  obtain ⟨-, -, -, hwf, -⟩ := shape i
  exact hwf

/-- Settles O4: only the default rows of the two maps answer "not shown", and a byte outside a map reaches its default
row. -/
theorem notShownExactlyOutsideTheMaps : Obligations.NotShownExactlyOutsideTheMaps := by
  refine fun bytes opcode => ⟨notMem_of_decode, ?_⟩
  rintro (⟨b0, rest, rfl, rfl, hb0⟩ | ⟨b1, rest, rfl, rfl, hb1⟩)
  · exact decode_of_notMem hb0 rest
  · exact decodeAfterCE_of_notMem hb1 rest

/-- Settles O5: the bytes begin with the encoding, whose length is the table's. -/
theorem decoderNeedsExactlyTheLength : Obligations.DecoderNeedsExactlyTheLength := by
  intro bytes i h
  obtain ⟨rest, rfl⟩ := encode_append_of_decode h
  obtain ⟨hlen, -⟩ := shape i
  rw [← hlen]
  refine ⟨?_, fun k hk => ?_⟩
  · simpa using decode_encode_append i []
  · rw [List.take_append_of_le_length hk.le]
    exact decode_take_encode hk

/-- Settles O7: the assembler inverts `Instr.operands`, and refuses only pairs that are not legal. -/
theorem assemblerAcceptsExactlyTheRows : Obligations.AssemblerAcceptsExactlyTheRows := by
  refine ⟨fun p i => assemble_eq_some, fun p => ⟨exists_assemble_of_wellFormed, ?_⟩,
    fun ll hh nn => ⟨rfl, rfl, rfl, rfl⟩⟩
  rintro ⟨i, h⟩
  obtain ⟨-, -, -, hwf, -⟩ := shape i
  exact assemble_eq_some.1 h ▸ hwf

/-- Settles O9: the window begins with the opcode bytes, and outside the maps they decide. -/
theorem stepRefusesNotShown : Obligations.StepRefusesNotShown := by
  refine ⟨fun s b0 h0 hb0 => ?_, fun s b1 h0 h1 hb1 => ?_⟩
  · have hwindow : fetchWindow s = b0 :: fetchRun s (s.pc + 1) 2 := by simp [fetchWindow, maxLength, fetchRun, h0]
    exact step_of_notShown (hwindow ▸ decode_of_notMem hb0 _)
  · have hwindow : fetchWindow s = 0xCE#8 :: b1 :: fetchRun s (s.pc + 2) 1 := by
      simp [fetchWindow, maxLength, fetchRun, h0, h1]
    exact step_of_notShown (hwindow ▸ decodeAfterCE_of_notMem hb1 _)

/-- Settles O2: each row is an encoding with bytes after it; 06H and 07H are outside the first-byte map. -/
theorem opcodeMapsAsListed : Obligations.OpcodeMapsAsListed := by
  intro x y rest
  have row (i : Instr) : decode (encode i ++ rest) = .instr i := decode_encode_append i rest
  exact ⟨row .andAA, row .andAB, row (.andAImm x), row .andAMHL, row (.andAMBR x), row (.andAMAbs x y), row .andAMIX,
    row .andAMIY, row (.andSCImm x), row (.andMBRImm x y), row (.andAMIXd x), row (.andAMIYd x), row .andAMIXL,
    row .andAMIYL, row .andMHLA, row (.andMHLImm x), row .andMHLMIX, row .andMHLMIY, row (.andBImm x),
    row (.andLImm x), row (.andHImm x), decode_of_notMem (by decide) rest, decode_of_notMem (by decide) rest⟩

/-- Settles O3: with the bit at either value, the bytes are the encoding of the IX or the IY form. -/
theorem indexSelectBit : Obligations.IndexSelectBit := by
  intro ir dd rest
  have row (i : Instr) : decode (encode i ++ rest) = .instr i := decode_encode_append i rest
  cases ir with
  | false => exact ⟨row .andAMIX, row (.andAMIXd dd), row .andAMIXL, row .andMHLMIX⟩
  | true => exact ⟨row .andAMIY, row (.andAMIYd dd), row .andAMIYL, row .andMHLMIY⟩

/-- Settles O6: nine words are encodings, two are outside the maps. -/
theorem tableWordsDecode : Obligations.TableWordsDecode := by
  refine ⟨?_, ?_, ?_, ?_, ?_, ?_, ?_, ?_, ?_, ?_, ?_⟩
  case refine_10 => exact decodeTableWord_of_notShown (decode_of_notMem (b0 := 0x28#8) (by decide) [0x00#8, 0x00#8])
  case refine_11 => exact decodeTableWord_of_notShown (decodeAfterCE_of_notMem (b1 := 0xB3#8) (by decide) [0x00#8])
  all_goals exact decodeTableWord_of_tableBytes (by decide)

end Sys2Proof.Machine
end

section
/-! SUPPORT. The 8-bit AND as an operation (40_and_a.md R75), and the 12 encodings with destination A: where they complete,
what they do and what they leave unchanged (R76 to R88). -/

namespace Sys2Proof.Machine

/-! ### Completion of AND A -/

/-- A readable byte is ANDed into A (40_and_a.md R76). -/
theorem exists_andedIntoA_of_readable {s : State} {ea : Nat} (len : Nat) (h : Readable s ea) :
    ∃ t, andMemIntoA s ea len = .next t ∧ AndedIntoA (s.mem.byte ea) len s t :=
  ⟨_, andMemIntoA_eq_next.2 ⟨h, rfl⟩, andedIntoA_andIntoA s _ len⟩

/-- Settles O16: no access can stop the three; A ANDed with itself is A. -/
theorem andAFromRegisterOrImmediate : Obligations.AndAFromRegisterOrImmediate := by
  intro s nn
  exact ⟨⟨_, rfl, andedIntoA_andIntoA s s.a 1, BitVec.and_self⟩, ⟨_, rfl, andedIntoA_andIntoA s s.b 1⟩,
    _, rfl, andedIntoA_andIntoA s nn 2⟩

/-- Settles O17: both meanings read the byte at their address and AND it into A. -/
theorem andAFromAbsoluteAddress : Obligations.AndAFromAbsoluteAddress :=
  fun _ _ _ => ⟨exists_andedIntoA_of_readable 2, exists_andedIntoA_of_readable 3⟩

/-- Settles O18: the three meanings read the byte at their address and AND it into A. -/
theorem andAFromRegisterIndirect : Obligations.AndAFromRegisterIndirect :=
  fun _ => ⟨exists_andedIntoA_of_readable 1, exists_andedIntoA_of_readable 1, exists_andedIntoA_of_readable 1⟩

/-- Settles O19: both meanings read the byte at the displaced address and AND it into A. -/
theorem andAWithDisplacement : Obligations.AndAWithDisplacement :=
  fun _ _ => ⟨exists_andedIntoA_of_readable 3, exists_andedIntoA_of_readable 3⟩

/-- Settles O20: both meanings read the byte at the address with L added and AND it into A. -/
theorem andAWithIndexRegister : Obligations.AndAWithIndexRegister :=
  fun _ => ⟨exists_andedIntoA_of_readable 2, exists_andedIntoA_of_readable 2⟩

/-! ### Frame of AND A -/

/-- An instruction with destination A stores nothing (20_memory.md R45). -/
theorem storeAddr_of_dst_a {i : Instr} (h : i.operands.dst = .a) (s : State) : storeAddr i s = none := by
  rw [← operandAddr_dst, h]
  rfl

/-- Every completed `AND A, src` is the one update of 40_and_a.md R76, with its source's value and its length. -/
theorem exec_andedIntoA {i : Instr} {s t : State} (hdst : i.operands.dst = .a) (h : exec i s = .next t) :
    AndedIntoA (operandValue i.operands.src s) i.length s t := by
  rcases exec_cases h with ⟨-, -, rfl⟩ | ⟨nn, rfl, -⟩ | ⟨nn, rfl, -⟩ | ⟨nn, rfl, -⟩ | ⟨nn, rfl, -⟩ |
    ⟨ea, s', nz, hea, -⟩
  · exact andedIntoA_andIntoA s _ _
  case inr.inr.inr.inr.inr => simp [storeAddr_of_dst_a hdst] at hea
  all_goals cases hdst

/-- Settles O32: the frame is part of the one update of destination A. -/
theorem frameOfAForms : Obligations.FrameOfAForms := by
  intro i s t hdst h
  obtain ⟨-, ⟨-, -, hflags⟩, -, hb, hh, hl, hregs, hmem, hlaunch⟩ := exec_andedIntoA hdst h
  exact ⟨hb, hh, hl, hregs, hlaunch, hmem, hflags⟩

/-! ### One AND for every encoding -/

/-- AND, read as a number, is at most its first operand (40_and_a.md R75). -/
theorem toNat_and_le_left (x y : Byte) : (x &&& y).toNat ≤ x.toNat := by
  rw [BitVec.toNat_and]
  exact Nat.and_le_left

/-- AND, read as a number, is at most its second operand (40_and_a.md R75). -/
theorem toNat_and_le_right (x y : Byte) : (x &&& y).toNat ≤ y.toNat := by
  rw [BitVec.and_comm]
  exact toNat_and_le_left y x

/-- A memory destination's value is the byte at the address the meaning stores to (42_and_mem.md R93). -/
theorem operandValue_dst_of_storeAddr {i : Instr} {s : State} {ea : Nat} (h : storeAddr i s = some ea) :
    operandValue i.operands.dst s = s.mem.byte ea := by
  cases i <;> cases h <;> rfl

/-- A completed instruction leaves in its destination the AND of the two operands' old values (40_and_a.md R75). -/
theorem exec_dst {i : Instr} {s t : State} (h : exec i s = .next t) :
    operandValue i.operands.dst t = operandValue i.operands.dst s &&& operandValue i.operands.src s := by
  rcases exec_cases h with ⟨hdst, -, rfl⟩ | ⟨nn, rfl, rfl⟩ | ⟨nn, rfl, rfl⟩ | ⟨nn, rfl, rfl⟩ | ⟨nn, rfl, rfl⟩ |
    ⟨ea, s', nz, hea, -, hs', -, rfl⟩
  · rw [hdst]
    rfl
  case inr.inr.inr.inr.inr =>
    have hea' : storeAddr i s' = some ea := by
      rcases hs' with rfl | rfl
      · exact hea
      · rwa [storeAddr_useChoice]
    rw [operandValue_dst_stored hea', operandValue_dst_of_storeAddr hea]
  all_goals rfl

/-- Settles O26: the laws are those of the bitwise AND, and every meaning puts that AND in its destination. -/
theorem oneAndForEveryEncoding : Obligations.OneAndForEveryEncoding := by
  refine ⟨fun _ _ _ => BitVec.getLsbD_and, fun x y z => ?_, rfl, rfl, rfl, fun _ _ _ h => exec_dst h⟩
  exact ⟨BitVec.and_comm x y, BitVec.and_assoc x y z, BitVec.and_self, BitVec.and_allOnes, BitVec.and_zero,
    toNat_and_le_left x y, toNat_and_le_right x y⟩

end Sys2Proof.Machine
end

section
/-! SUPPORT. The registers A, B, L and H under any completed instruction, and the frames of `AND` of an immediate into B,
L, H (41_and_reg_imm.md R89 to R91) and SC (R92). -/

namespace Sys2Proof.Machine

/-- A completed instruction keeps each of A, B, L and H that is not its destination. -/
theorem exec_keeps_registers {i : Instr} {s t : State} (h : exec i s = .next t) :
    (i.operands.dst ≠ .a → t.a = s.a) ∧ (i.operands.dst ≠ .b → t.b = s.b) ∧ (i.operands.dst ≠ .l → t.l = s.l) ∧
      (i.operands.dst ≠ .h → t.h = s.h) := by
  rcases exec_cases h with ⟨hdst, -, rfl⟩ | ⟨nn, rfl, rfl⟩ | ⟨nn, rfl, rfl⟩ | ⟨nn, rfl, rfl⟩ | ⟨nn, rfl, rfl⟩ |
    ⟨ea, s', nz, -, -, rfl | rfl, -, rfl⟩
  · simp [hdst]
  all_goals simp [Instr.operands]

/-- Settles O33: of A, B, L and H only the destination changes, no address is stored to, and the six flags that are
neither N nor Z are kept. -/
theorem frameOfBLHForms : Obligations.FrameOfBLHForms := by
  intro i nn s t hi h
  obtain ⟨ha, hb, hl, hh⟩ := exec_keeps_registers h
  obtain ⟨hregs, hlaunch⟩ := exec_keeps h
  have hstore : storeAddr i s = none := by rcases hi with rfl | rfl | rfl <;> rfl
  have hsc (imm : Byte) : i ≠ .andSCImm imm := by rcases hi with rfl | rfl | rfl <;> nofun
  have hframe : KeepsAddressRegs s t ∧ KeepsLaunch s t ∧ KeepsMemory s t ∧ ∀ f, f ≠ .n → f ≠ .z → t.flag f = s.flag f :=
    ⟨hregs, hlaunch, exec_keepsMemory hstore h, fun _ => exec_keeps_other_flags hsc h⟩
  rcases hi with rfl | rfl | rfl
  · exact ⟨ha nofun, fun hne => absurd rfl hne, fun _ => hl nofun, fun _ => hh nofun, hframe⟩
  · exact ⟨ha nofun, fun _ => hb nofun, fun hne => absurd rfl hne, fun _ => hh nofun, hframe⟩
  · exact ⟨ha nofun, fun _ => hb nofun, fun _ => hl nofun, fun hne => absurd rfl hne, hframe⟩

/-- The SC that `AND SC, #nn` leaves is the old one ANDed as a byte (41_and_reg_imm.md R92). -/
theorem sc_of_exec_andSCImm {nn : Byte} {s t : State} (h : exec (.andSCImm nn) s = .next t) : t.sc = s.sc &&& nn := by
  cases h
  rfl

/-- Settles O34: the destination is none of A, B, L and H, no address is stored to, and a flag of the ANDed SC was set
in the old one. -/
theorem frameOfSCForm : Obligations.FrameOfSCForm := by
  intro nn s t h
  obtain ⟨ha, hb, hl, hh⟩ := exec_keeps_registers h
  obtain ⟨hregs, hlaunch⟩ := exec_keeps h
  have hflags (f : Flag) (hset : t.flag f = true) : s.flag f = true := by
    rw [flag_of_sc_and (sc_of_exec_andSCImm h), Bool.and_eq_true] at hset
    exact hset.1
  exact ⟨ha nofun, hb nofun, hh nofun, hl nofun, hregs, hlaunch, exec_keepsMemory rfl h, hflags⟩

end Sys2Proof.Machine
end

section
/-! SUPPORT. The five encodings with a memory destination (42_and_mem.md): where they complete, what they do and what
they leave unchanged (R93 to R98). -/

namespace Sys2Proof.Machine

/-! ### Completion of AND into memory -/

/-- A writable byte is ANDed with a register's or an immediate's value (42_and_mem.md R93). -/
theorem exists_andedIntoMem_of_writable {s : State} {ea : Nat} (v : Byte) (nz : Bool) (len : Nat) (h : Writable s ea) :
    ∃ t, andIntoMem s ea v nz len = .next t ∧ AndedIntoMem ea v nz len s t :=
  ⟨_, andIntoMem_eq_next.2 ⟨h, rfl⟩, andedIntoMem_stored s ea v nz len⟩

/-- Using up a choice shows in nothing that R93 speaks of (log 10). -/
theorem andedIntoMem_useChoice {s t : State} {ea : Nat} {v : Byte} {nz : Bool} {len : Nat} :
    AndedIntoMem ea v nz len s.useChoice t ↔ AndedIntoMem ea v nz len s t := Iff.rfl

/-- A writable byte is ANDed with a readable one, whichever of the two is read first (42_and_mem.md R97, R98). -/
theorem exists_andedIntoMem_of_readable {s : State} {dst src : Nat} (len : Nat) (hw : Writable s dst)
    (hr : Readable s src) :
    ∃ t, andMemIntoMem s dst src len = .next t ∧ AndedIntoMem dst (s.mem.byte src) true len s t :=
  ⟨_, andMemIntoMem_eq_next.2 ⟨hr, hw, rfl⟩,
    andedIntoMem_useChoice.1 (andedIntoMem_stored s.useChoice dst (s.mem.byte src) true len)⟩

/-- Settles O23: the meaning ANDs the immediate into the byte at [BR:ll] and hands on the switch of R94. -/
theorem andImmediateIntoBRll : Obligations.AndImmediateIntoBRll :=
  fun s _ nn => exists_andedIntoMem_of_writable nn s.params.brllImmWritesNZ 3

/-- Settles O24: both meanings AND their source into the byte at [HL]. -/
theorem andIntoHLByte : Obligations.AndIntoHLByte :=
  fun s nn hw => ⟨exists_andedIntoMem_of_writable s.a true 2 hw, exists_andedIntoMem_of_writable nn true 3 hw⟩

/-- Settles O25: both meanings AND the byte at their index register into the byte at [HL]. -/
theorem andMemoryIntoHLByte : Obligations.AndMemoryIntoHLByte :=
  fun _ hw => ⟨exists_andedIntoMem_of_readable 2 hw, exists_andedIntoMem_of_readable 2 hw⟩

/-! ### Frame of AND into memory -/

/-- Every completed instruction that stores is the one update of 42_and_mem.md R93, with its source's value and its
length. -/
theorem exec_andedIntoMem {i : Instr} {s t : State} {ea : Nat} (hea : storeAddr i s = some ea)
    (h : exec i s = .next t) : ∃ nz, AndedIntoMem ea (operandValue i.operands.src s) nz i.length s t := by
  rcases exec_cases h with ⟨-, hnone, -⟩ | ⟨nn, rfl, -⟩ | ⟨nn, rfl, -⟩ | ⟨nn, rfl, -⟩ | ⟨nn, rfl, -⟩ |
    ⟨ea', s', nz, hea', -, hs', -, rfl⟩
  · simp [hnone] at hea
  case inr.inr.inr.inr.inr =>
    obtain rfl : ea' = ea := Option.some.inj (hea'.symm.trans hea)
    refine ⟨nz, ?_⟩
    rcases hs' with rfl | rfl
    · exact andedIntoMem_stored _ _ _ _ _
    · exact andedIntoMem_useChoice.1 (andedIntoMem_stored s.useChoice _ _ _ _)
  all_goals cases hea

/-- An instruction that stores is not `AND SC, #nn` (20_memory.md R45). -/
theorem ne_andSCImm_of_storeAddr {i : Instr} {s : State} {ea : Nat} (hea : storeAddr i s = some ea) (nn : Byte) :
    i ≠ .andSCImm nn := by
  rintro rfl
  cases hea

/-- Settles O35: the frame is part of the one update of a memory destination, and no such instruction is
`AND SC, #nn`, the only one that changes a flag other than N and Z. -/
theorem frameOfMemoryForms : Obligations.FrameOfMemoryForms := by
  intro i s t ea hea h
  obtain ⟨nz, -, hmem, -, -, -, ha, hb, hh, hl, hregs, hlaunch⟩ := exec_andedIntoMem hea h
  exact ⟨ha, hb, hh, hl, hregs, hlaunch, hmem, fun _ => exec_keeps_other_flags (ne_andSCImm_of_storeAddr hea) h⟩

end Sys2Proof.Machine
end

section
/-! SUPPORT. When a step completes (70_reset_and_hazards.md R116), what the next instruction sees of it (R117), the end of
a run and the run of a straight-line text (R120), and the printed cycle figures (R122). -/

namespace Sys2Proof.Machine

/-! ### Completion -/

theorem stopOf_eq_none {α : Type} {o : Host.Outcome α Fault Refusal} : stopOf o = none ↔ ∃ x, o = .next x := by
  cases o <;> simp [stopOf]

/-- An instruction completes exactly where each of its data accesses is admitted (20_memory.md R52, R58). -/
theorem exec_completes_iff {i : Instr} {s : State} : (∃ t, exec i s = .next t) ↔ DataAdmitted i s := by
  rw [← stopOf_eq_none, stopOf_exec, List.findSome?_eq_none_iff]
  rfl

/-- Settles O11: a completed step is a completed instruction at pc, and `exec` stops only at a data access. -/
theorem stepCompletesExactlyWhenAdmitted : Obligations.StepCompletesExactlyWhenAdmitted := by
  intro s
  constructor
  · rintro ⟨t, h⟩
    obtain ⟨i, hcode, hexec⟩ := exec_of_step h
    exact ⟨i, hcode, exec_completes_iff.1 ⟨t, hexec⟩⟩
  · rintro ⟨i, hcode, hdata⟩
    rw [stepRunsDecodedInstruction i s hcode]
    exact exec_completes_iff.2 hdata

/-! ### No hazard -/

/-- `AND A, [HL]` completes where the byte at [HL] is readable, and A is then its AND with that byte (40_and_a.md R82). -/
theorem exec_andAMHL_of_readable {s : State} {ea : Nat} (hea : eaHL s = ea) (h : Readable s ea) :
    ∃ u, exec .andAMHL s = .next u ∧ u.a = s.a &&& s.mem.byte ea := by
  subst hea
  obtain ⟨u, hexec, ha, -⟩ := exists_andedIntoA_of_readable 1 h
  exact ⟨u, hexec, ha⟩

/-- Whether a read is admitted is the platform's alone (20_memory.md R52). -/
theorem readable_of_params {s t : State} {ea : Nat} (hparams : t.params = s.params) (h : Readable s ea) :
    Readable t ea := by
  rwa [Readable, hparams]

/-- Settles O44: after the first instruction [HL] is the new HL's address, or the address just stored to, which was
writable. -/
theorem nextInstructionSeesTheEffects : Obligations.NextInstructionSeesTheEffects := by
  constructor
  · intro s t nn h hread
    cases h
    exact exec_andAMHL_of_readable rfl hread
  · intro s t h
    obtain ⟨⟨hread, -⟩, rfl⟩ := andIntoMem_eq_next.1 h
    have hea := eaHL_stored s (eaHL s) (s.mem.byte (eaHL s) &&& s.a) true 2
    obtain ⟨u, hexec, ha⟩ := exec_andAMHL_of_readable hea (readable_of_params (stored_params ..) hread)
    exact ⟨u, hexec, by simpa using ha⟩

/-! ### The end of a run -/

/-- A program address matters modulo the program space only (10_state.md R28). -/
theorem fetch_mod_add (s : State) (addr k : Nat) :
    fetch s (addr % 2 ^ s.params.pcBits + k) = fetch s (addr + k) := by
  rw [fetch, fetch, Nat.mod_add_mod]

/-- The byte fetched depends on the text and the parameters only (10_state.md R28). -/
theorem fetch_of_keepsLaunch {s t : State} (h : KeepsLaunch s t) (addr : Nat) : fetch t addr = fetch s addr := by
  obtain ⟨htext, hparams⟩ := h
  rw [fetch, fetch, htext, hparams]

/-- Where no byte can be fetched at pc, the step is stuck there (10_state.md R28). -/
theorem step_of_fetch_none {s : State} (h : fetch s s.pc = none) :
    step s = .fault (.noFetch (s.pc % 2 ^ s.params.pcBits)) :=
  step_of_needByte (k := 0) (by rw [fetchWindow, fetchRun_eq_of_gap (bytes := []) nofun (Nat.zero_le _) h, decode])

/-- Settles O48: the address after a text smaller than the program space is not one of the text's. -/
theorem finalStateHasNoStep : Obligations.FinalStateHasNoStep := by
  rintro s base size hsize ⟨hocc, hpc⟩
  have hgap : fetch s (base + size) = none := by simpa using hocc size hsize
  have hlt : s.pc < 2 ^ s.params.pcBits := hpc ▸ Nat.mod_lt _ (Nat.two_pow_pos _)
  have hfetch : fetch s s.pc = none := by simpa [← hpc, hgap] using fetch_mod_add s (base + size) 0
  rw [step_of_fetch_none hfetch, Nat.mod_eq_of_lt hlt]

/-! ### Plain memory -/

/-- Every operand's address lies in the physical space (20_memory.md R35 to R43). -/
theorem operandAddr_lt {o : Operand} {s : State} {addr : Nat} (h : operandAddr o s = some addr) :
    addr < 2 ^ physBits s.params := by
  cases o <;> cases h <;> exact physAddr_lt _ _ _

/-- Plain memory stops no access inside the physical space (20_memory.md R52, R58). -/
theorem accessStop_of_plainPlatform {p : Params} (hp : PlainPlatform p) {addr : Nat} (h : addr < 2 ^ physBits p) :
    accessStop p (.read addr) = none ∧ accessStop p (.write addr) = none := by
  obtain ⟨hunmapped, hside, hcode⟩ := hp
  simp [accessStop, mapped, sideEffect, codeRegion, inRegions, hunmapped, hside, hcode, h]

/-- On plain memory every data access is admitted (70_reset_and_hazards.md R116). -/
theorem dataAdmitted_of_plainPlatform {s : State} (hp : PlainPlatform s.params) (i : Instr) : DataAdmitted i s := by
  intro acc hacc
  have hstop {o : Operand} {addr : Nat} (h : operandAddr o s = some addr) :=
    accessStop_of_plainPlatform hp (operandAddr_lt h)
  rw [accesses_eq, List.mem_append, mem_accessReads, mem_operandReads, mem_operandReads] at hacc
  rcases hacc with (⟨addr, haddr, rfl⟩ | ⟨addr, haddr, rfl⟩) | hwrite
  · exact (hstop haddr).1
  · exact (hstop haddr).1
  · obtain ⟨addr, haddr, rfl⟩ : ∃ addr, operandAddr i.operands.dst s = some addr ∧ Access.write addr = acc := by
      simpa [operandWrites] using hwrite
    exact (hstop haddr).2

/-! ### Straight-line text -/

/-- These bytes stand in the text from pc on. -/
def TextAtPC (s : State) (bytes : List Byte) : Prop := ∀ k, k < bytes.length → fetch s (s.pc + k) = bytes[k]?

theorem codeAdmitted_of_textAtPC {s : State} {i : Instr} {rest : List Byte} (h : TextAtPC s (encode i ++ rest)) :
    CodeAdmitted i s := by
  intro k hk
  rw [h k (by rw [List.length_append]; omega), List.getElem?_append_left hk]

/-- After an instruction, the bytes that stood behind it stand at pc (10_state.md R29). -/
theorem textAtPC_of_exec {s t : State} {i : Instr} {rest : List Byte} (h : TextAtPC s (encode i ++ rest))
    (hexec : exec i s = .next t) : TextAtPC t rest := by
  obtain ⟨-, hlaunch⟩ := exec_keeps hexec
  obtain ⟨hlen, -⟩ := shape i
  intro k hk
  rw [fetch_of_keepsLaunch hlaunch, exec_pc hexec, ← hlen, fetch_mod_add, Nat.add_assoc,
    h _ (by rw [List.length_append]; omega), List.getElem?_append_right (Nat.le_add_right _ k), Nat.add_sub_cancel_left]

/-- On plain memory, the instruction at pc completes in one step. -/
theorem exists_step_of_textAtPC {s : State} {i : Instr} {rest : List Byte} (hp : PlainPlatform s.params)
    (h : TextAtPC s (encode i ++ rest)) : ∃ t, step s = .next t ∧ exec i s = .next t := by
  obtain ⟨t, hexec⟩ := exec_completes_iff.2 (dataAdmitted_of_plainPlatform hp i)
  exact ⟨t, (stepRunsDecodedInstruction i s (codeAdmitted_of_textAtPC h)).trans hexec, hexec⟩

/-- A run goes on from the state its first step answers. -/
theorem run_succ_of_step {s t : State} (h : step s = .next t) (n : Nat) :
    Host.Core.run Sys2Proof.core (n + 1) s = Host.Core.run Sys2Proof.core n t := by
  have hcore : Sys2Proof.core.step s = .next t := h
  simp only [Host.Core.run, hcore]

theorem keepsLaunch_trans {s t u : State} (hst : KeepsLaunch s t) (htu : KeepsLaunch t u) : KeepsLaunch s u :=
  ⟨htu.1.trans hst.1, htu.2.trans hst.2⟩

/-- Two advances of pc are one by the sum of the lengths (10_state.md R29). -/
theorem advanced_trans {m n : Nat} {s t u : State} (hlaunch : KeepsLaunch s t) (hst : Advanced m s t)
    (htu : Advanced n t u) : Advanced (m + n) s u := by
  unfold Advanced at *
  rw [htu, hst, hlaunch.2, Nat.mod_add_mod, Nat.add_assoc]

/-- A straight-line text runs each instruction once, up to the address after it (70_reset_and_hazards.md R120). -/
theorem run_of_textAtPC (is : List Instr) {s : State} (hp : PlainPlatform s.params) (hpc : s.pc < 2 ^ s.params.pcBits)
    (htext : TextAtPC s (is.flatMap encode)) :
    ∃ t : State, Host.Core.run Sys2Proof.core is.length s = .next t ∧ KeepsLaunch s t ∧
      Advanced (is.flatMap encode).length s t := by
  induction is generalizing s with
  | nil => exact ⟨s, rfl, ⟨rfl, rfl⟩, (Nat.mod_eq_of_lt hpc).symm⟩
  | cons i is ih =>
    rw [List.flatMap_cons] at htext ⊢
    obtain ⟨s', hstep, hexec⟩ := exists_step_of_textAtPC hp htext
    obtain ⟨-, hlaunch⟩ := exec_keeps hexec
    obtain ⟨hlen, -⟩ := shape i
    have hpc' : Advanced (encode i).length s s' := hlen ▸ exec_pc hexec
    have hp' : PlainPlatform s'.params := hlaunch.2 ▸ hp
    have hlt : s'.pc < 2 ^ s'.params.pcBits := by
      rw [hpc', hlaunch.2]
      exact Nat.mod_lt _ (Nat.two_pow_pos _)
    obtain ⟨t, hrun, hlaunch', hadv⟩ := ih hp' hlt (textAtPC_of_exec htext hexec)
    exact ⟨t, (run_succ_of_step hstep _).trans hrun, keepsLaunch_trans hlaunch hlaunch',
      List.length_append ▸ advanced_trans hlaunch hpc' hadv⟩

theorem occupies_of_keepsLaunch {s t : State} (h : KeepsLaunch s t) {base size : Nat} (hs : Occupies s base size) :
    Occupies t base size := by
  intro k hk
  rw [fetch_of_keepsLaunch h]
  exact hs k (h.2 ▸ hk)

/-- Settles O49: the run ends at the address after the text, and the text is kept. -/
theorem straightLineTextRunsToItsEnd : Obligations.StraightLineTextRunsToItsEnd := by
  intro is s hp hpc hocc htext
  obtain ⟨t, hrun, hlaunch, hadv⟩ := run_of_textAtPC is hp hpc htext
  exact ⟨t, hrun, occupies_of_keepsLaunch hlaunch hocc, hlaunch.2 ▸ hadv⟩

/-! ### The cycle table -/

/-- Settles O45: the three tables held to each other row by row. -/
theorem cycleFiguresFollowThePattern : Obligations.CycleFiguresFollowThePattern := by
  intro i
  cases i <;> rfl

end Sys2Proof.Machine
end
